-- ==== Sys2Proof/Word.lean ====
section
/-! DEFINITION. The unit of everything is the byte of 8 bits (20_memory.md R30); the only wider value is
the 16-bit selector word of the decoder (30_encoding.md R61). Cursors and addresses are natural
numbers (10_state.md R10 to R14). -/

namespace Sys2Proof

/-- A byte: bit 0 is the least significant bit, bit 5 has weight 0x20 (R30). Every byte is unsigned. -/
abbrev Byte := BitVec 8

/-- The selector word `W = {DSTATE, val}` of `DEC.ACCEPT` (R61). -/
abbrev SelectorWord := BitVec 16

end Sys2Proof
end

