-- ==== Sys2Proof/Config.lean ====
section
/-! DEFINITION. What a machine is built with (00_scope.md R4, R5) and the free value of the spec: the content
of a buffer cell after reset (10_state.md R27). -/

namespace Sys2Proof

/-- The two address spaces (20_memory.md R38). -/
inductive Space where
  | tx   -- TXBUF
  | rx   -- RXBUF
  deriving DecidableEq, Repr

/-- `ESC_RESERVED_POLICY` (00_scope.md R5; 92_eei_decisions.md D5). -/
inductive EscReservedPolicy where
  | unstuff   -- the value the spec takes
  | abort
  deriving DecidableEq, Repr

/-- The parameters of R4 and R5. No operation writes them; every statement over all states holds for all
their values. -/
structure Config where
  txSize : Nat
  rxSize : Nat
  policy : EscReservedPolicy
  deriving DecidableEq, Repr

/-- FREE VALUE (log entry 5): the byte that cell `a` of a space holds after the `n`-th reset when nothing has
been written there since. R27: "any of the 256 values, independently per cell". Nothing constrains it. DESIGN CHOICE
(log entry 19): no argument names the block, so two blocks (60_exceptions.md R162), or two runs of one block, that
have had the same number of resets have the same contents where nothing has been written; the spec relates them in
no way. -/
opaque Config.resetCell : Space → Nat → Nat → BitVec 8

/-- DESIGN CHOICE (log entry 4): the parameters of the machine that `State.reset` is. The policy is the
spec's value; the sizes are open in the spec. -/
def Config.standard : Config := { txSize := 800, rxSize := 800, policy := .unstuff }

end Sys2Proof
end

