-- ==== Sys2Proof/Machine/Alphabet.lean ====
section
/-! DEFINITION. The byte constants, the classification of bytes and the escape transform (00_scope.md R6;
30_encoding.md R50, R51, R58). -/

namespace Sys2Proof

/-- R6, R50: the escape byte; in the state register it means `ESC_PENDING` (R18). -/
def ESC : Byte := 0x7D#8
/-- R6, R50: the flag byte; in the state register it means `READY` (R18). -/
def FLAG : Byte := 0x7E#8
/-- R6, R50: the abort byte. -/
def ABORT : Byte := 0x7F#8
/-- R6: the mask of the escape transform. -/
def XMASK : Byte := 0x20#8
/-- R6, R18: the seed, "the only legal seed value". -/
def INIT : Byte := 0x00#8

/-- The four classes of R51. -/
inductive ByteClass where
  | esc | flag | abort | data
  deriving DecidableEq, Repr

/-- R51: `class(b)`. -/
def classOf (b : Byte) : ByteClass :=
  if b = ESC then .esc else if b = FLAG then .flag else if b = ABORT then .abort else .data

/-- R51: `reserved(b) = (class(b) != DATA)`. -/
def reserved (b : Byte) : Bool := classOf b != .data

/-- R58: the escape transform `x(b) = b ^ 0x20`, the same function in both directions. -/
def escapeX (b : Byte) : Byte := b ^^^ XMASK

/-- R18: the three legal values of the state register. -/
def legalState (b : Byte) : Bool := b == INIT || b == FLAG || b == ESC

end Sys2Proof
end

