-- ==== Sys2Proof/Syntax.lean ====
section
/-! DEFINITION. One constructor per row of spec/opcode_table.json, in the table's order. A row whose selector is
one value carries no operand; a row that matches several carries the part that is open. -/

namespace Sys2Proof

/-- The cases of the two unit operations, the host operations, the pseudo-operations and the reset event. -/
inductive Instr where
  -- ENC.NEXT (30_encoding.md R60)
  | encNextEnd                              -- R71, the guard row
  | encNextStuffEsc                         -- R72, b == 0x7D
  | encNextStuffFlag                        -- R72, b == 0x7E
  | encNextStuffAbort                       -- R72, b == 0x7F
  | encNextLit (b : Byte)                   -- R73, any other b
  -- DEC.ACCEPT (30_encoding.md R61)
  | decAcceptExh (val : Byte)               -- R81, the guard row
  | decAcceptUnescEsc                       -- R82, row 2: ESC_PENDING, ESC
  | decAcceptUnescAbort                     -- R82, row 3: ESC_PENDING, ABORT
  | decAcceptUnesc (val : Byte)             -- R82, row 4: ESC_PENDING, any other
  | decAcceptSkip                           -- R83: INIT, FLAG
  | decAcceptEscinInit                      -- R84, row 6: INIT, ESC
  | decAcceptEscinReady                     -- R84, row 7: READY, ESC
  | decAcceptDone                           -- R85: READY, FLAG
  | decAcceptSabortInit                     -- R86, row 9: INIT, ABORT
  | decAcceptSabortReady                    -- R86, row 10: READY, ABORT
  | decAcceptDataInit (val : Byte)          -- R87, row 11: INIT, any other
  | decAcceptDataReady (val : Byte)         -- R87, row 12: READY, any other
  | decAcceptCorrupt (state val : Byte)     -- R88: any other state, any val
  -- host operations (42_host_ops.md)
  | encLoad (s e : Nat)                     -- R100
  | decLoad (s e : Nat)                     -- R101
  | txWrite (a : Nat) (v : Byte)            -- R102
  | txRead (a : Nat)                        -- R103
  | rxWrite (a : Nat) (v : Byte)            -- R104
  | rxRead (a : Nat)                        -- R105
  | encCur                                  -- R108
  | decCur                                  -- R108
  | decSeed                                 -- R106
  | txFrame (s : Nat) (bytes : List Byte)   -- R107
  | rxOpen (s e : Nat)                      -- R109
  | reset                                   -- R170
  deriving DecidableEq, Repr

end Sys2Proof
end

