-- ==== Sys2Proof/WellFormed.lean ====
section
/-! DEFINITION. Which terms of `Instr` stand for a row of the table: the operand of an "any other" row is none
of the values an earlier row takes (30_encoding.md R60, R61). Host operands are any natural numbers and bytes:
what a host operation asks of them is its own precondition (42_host_ops.md), tested when it runs. -/

namespace Sys2Proof

/-- The operand lies in the part of the selector that the row matches. -/
def Instr.wellFormed : Instr → Bool
  | .encNextLit b => !reserved b
  | .decAcceptUnesc val => val != ESC && val != ABORT
  | .decAcceptDataInit val => !reserved val
  | .decAcceptDataReady val => !reserved val
  | .decAcceptCorrupt state _ => !legalState state
  | .encNextEnd | .encNextStuffEsc | .encNextStuffFlag | .encNextStuffAbort => true
  | .decAcceptExh _ | .decAcceptUnescEsc | .decAcceptUnescAbort | .decAcceptSkip => true
  | .decAcceptEscinInit | .decAcceptEscinReady | .decAcceptDone => true
  | .decAcceptSabortInit | .decAcceptSabortReady => true
  | .encLoad _ _ | .decLoad _ _ | .txWrite _ _ | .txRead _ | .rxWrite _ _ | .rxRead _ => true
  | .encCur | .decCur | .decSeed | .txFrame _ _ | .rxOpen _ _ | .reset => true

end Sys2Proof
end

