-- ==== Sys2Proof/Decode.lean ====
section
/-! DEFINITION. From a request and the selector the state forms for it to the case that runs (30_encoding.md
R60 to R62), and back. The block decodes no instruction words: it decodes the byte at the encoder's cursor and
the word `{DSTATE, val}`; host operations are requested by name and have no binary form (R68, the table). -/

namespace Sys2Proof

/-- What the host may request by name (30_encoding.md R68; 42_host_ops.md; 70_reset_and_hazards.md R170). -/
inductive HostOp where
  | encLoad (s e : Nat)
  | decLoad (s e : Nat)
  | txWrite (a : Nat) (v : Byte)
  | txRead (a : Nat)
  | rxWrite (a : Nat) (v : Byte)
  | rxRead (a : Nat)
  | encCur
  | decCur
  | decSeed
  | txFrame (s : Nat) (bytes : List Byte)
  | rxOpen (s e : Nat)
  | reset
  deriving DecidableEq, Repr

/-- One request of the host: `enc_req`, `dec_req` with the byte on `rx_byte`, or a host operation (R49, R110). -/
inductive Request where
  | encNext
  | decAccept (val : Byte)
  | host (op : HostOp)
  deriving DecidableEq, Repr

/-- What a case is selected by. `none` in place of a cell is the guard: the cursor equals its bound and no
cell is read (R60, R61). -/
inductive Selector where
  | enc (cell : Option Byte)
  | dec (state : Option Byte) (val : Byte)
  | host (op : HostOp)
  deriving DecidableEq, Repr

/-- A row of the selector table R61 below its guard: it matches when `(W & mask) == pattern`. -/
structure DecRow where
  pattern : SelectorWord
  mask    : SelectorWord
  instr   : Byte → Byte → Instr

/-- R61: the state register in bits 15 to 8, the received byte in bits 7 to 0. -/
def selectorWord (state val : Byte) : SelectorWord := state ++ val

/-- R61: when a row matches. -/
def DecRow.hits (r : DecRow) (w : SelectorWord) : Bool := w &&& r.mask == r.pattern

/-- R61, rows 2 to 12, in the table's order. Row 1 is the guard and row 13 the default. -/
def decRows : List DecRow :=
  [ { pattern := 0x7D7D#16, mask := 0xFFFF#16, instr := fun _ _ => .decAcceptUnescEsc },
    { pattern := 0x7D7F#16, mask := 0xFFFF#16, instr := fun _ _ => .decAcceptUnescAbort },
    { pattern := 0x7D00#16, mask := 0xFF00#16, instr := fun _ val => .decAcceptUnesc val },
    { pattern := 0x007E#16, mask := 0xFFFF#16, instr := fun _ _ => .decAcceptSkip },
    { pattern := 0x007D#16, mask := 0xFFFF#16, instr := fun _ _ => .decAcceptEscinInit },
    { pattern := 0x7E7D#16, mask := 0xFFFF#16, instr := fun _ _ => .decAcceptEscinReady },
    { pattern := 0x7E7E#16, mask := 0xFFFF#16, instr := fun _ _ => .decAcceptDone },
    { pattern := 0x007F#16, mask := 0xFFFF#16, instr := fun _ _ => .decAcceptSabortInit },
    { pattern := 0x7E7F#16, mask := 0xFFFF#16, instr := fun _ _ => .decAcceptSabortReady },
    { pattern := 0x0000#16, mask := 0xFF00#16, instr := fun _ val => .decAcceptDataInit val },
    { pattern := 0x7E00#16, mask := 0xFF00#16, instr := fun _ val => .decAcceptDataReady val } ]

/-- R60: the rows of `ENC.NEXT`, tried from the top. -/
def decodeEnc : Option Byte → Instr
  | none => .encNextEnd
  | some b =>
    if b = 0x7D#8 then .encNextStuffEsc
    else if b = 0x7E#8 then .encNextStuffFlag
    else if b = 0x7F#8 then .encNextStuffAbort
    else .encNextLit b

/-- R61, R62: the rows of `DEC.ACCEPT`, the guard first, the first match deciding, row 13 when none does. -/
def decodeDec : Option Byte → Byte → Instr
  | none, val => .decAcceptExh val
  | some state, val =>
    match decRows.find? (fun r => r.hits (selectorWord state val)) with
    | some r => r.instr state val
    | none => .decAcceptCorrupt state val

/-- The host operations are themselves (R68). -/
def decodeHost : HostOp → Instr
  | .encLoad s e => .encLoad s e
  | .decLoad s e => .decLoad s e
  | .txWrite a v => .txWrite a v
  | .txRead a => .txRead a
  | .rxWrite a v => .rxWrite a v
  | .rxRead a => .rxRead a
  | .encCur => .encCur
  | .decCur => .decCur
  | .decSeed => .decSeed
  | .txFrame s bytes => .txFrame s bytes
  | .rxOpen s e => .rxOpen s e
  | .reset => .reset

/-- The decoder. It is total (R62, R66). -/
def decode : Selector → Instr
  | .enc cell => decodeEnc cell
  | .dec state val => decodeDec state val
  | .host op => decodeHost op

/-- The encoder, from the same tables: the selector an instruction is decoded from. -/
def encode : Instr → Selector
  | .encNextEnd => .enc none
  | .encNextStuffEsc => .enc (some 0x7D#8)
  | .encNextStuffFlag => .enc (some 0x7E#8)
  | .encNextStuffAbort => .enc (some 0x7F#8)
  | .encNextLit b => .enc (some b)
  | .decAcceptExh val => .dec none val
  | .decAcceptUnescEsc => .dec (some 0x7D#8) 0x7D#8
  | .decAcceptUnescAbort => .dec (some 0x7D#8) 0x7F#8
  | .decAcceptUnesc val => .dec (some 0x7D#8) val
  | .decAcceptSkip => .dec (some 0x00#8) 0x7E#8
  | .decAcceptEscinInit => .dec (some 0x00#8) 0x7D#8
  | .decAcceptEscinReady => .dec (some 0x7E#8) 0x7D#8
  | .decAcceptDone => .dec (some 0x7E#8) 0x7E#8
  | .decAcceptSabortInit => .dec (some 0x00#8) 0x7F#8
  | .decAcceptSabortReady => .dec (some 0x7E#8) 0x7F#8
  | .decAcceptDataInit val => .dec (some 0x00#8) val
  | .decAcceptDataReady val => .dec (some 0x7E#8) val
  | .decAcceptCorrupt state val => .dec (some state) val
  | .encLoad s e => .host (.encLoad s e)
  | .decLoad s e => .host (.decLoad s e)
  | .txWrite a v => .host (.txWrite a v)
  | .txRead a => .host (.txRead a)
  | .rxWrite a v => .host (.rxWrite a v)
  | .rxRead a => .host (.rxRead a)
  | .encCur => .host .encCur
  | .decCur => .host .decCur
  | .decSeed => .host .decSeed
  | .txFrame s bytes => .host (.txFrame s bytes)
  | .rxOpen s e => .host (.rxOpen s e)
  | .reset => .host .reset

/-- The unit, or the host port, that an instruction belongs to (the table's column `format`). -/
inductive Format where
  | enc | dec | host
  deriving DecidableEq, Repr

/-- The format a selector belongs to. -/
def Selector.format : Selector → Format
  | .enc _ => .enc
  | .dec _ _ => .dec
  | .host _ => .host

/-- The request an instruction answers to. -/
def Selector.request : Selector → Request
  | .enc _ => .encNext
  | .dec _ val => .decAccept val
  | .host op => .host op

/-- DESIGN CHOICE (log entry 12): a selector as bytes, the low byte first; the guard leaves the cell's byte
out. A host operation has no bytes. -/
def Selector.bytes : Selector → Option (List Byte)
  | .enc none => some []
  | .enc (some b) => some [b]
  | .dec none val => some [val]
  | .dec (some state) val => some [val, state]
  | .host _ => none

/-- The bytes of an instruction, where it has any. -/
def encodeBytes (i : Instr) : Option (List Byte) := (encode i).bytes

/-- Why a list of bytes is no selector. -/
inductive DecodeError where
  | noBinaryForm   -- a host operation is requested by name (the table's column `encoding`)
  | tooManyBytes   -- longer than the format's selector
  | missingVal     -- `DEC.ACCEPT` without its operand (R57)
  deriving DecidableEq, Repr

/-- The decoder on bytes, total, rejecting by name. -/
def decodeBytes : Format → List Byte → Except DecodeError Instr
  | .enc, [] => .ok (decode (.enc none))
  | .enc, [b] => .ok (decode (.enc (some b)))
  | .enc, _ :: _ :: _ => .error .tooManyBytes
  | .dec, [] => .error .missingVal
  | .dec, [val] => .ok (decode (.dec none val))
  | .dec, [val, state] => .ok (decode (.dec (some state) val))
  | .dec, _ :: _ :: _ :: _ => .error .tooManyBytes
  | .host, _ => .error .noBinaryForm

/-- The instruction read from a word of the opcode table (log entry 12): a row of 8 bits is a selector of
`ENC.NEXT`, a row of 16 bits one of `DEC.ACCEPT`; the table gives the other rows no binary form. -/
def decodeTableWord (nbits w : Nat) : Option Instr :=
  match nbits with
  | 8 => (decodeBytes .enc [BitVec.ofNat 8 w]).toOption
  | 16 => (decodeBytes .dec [BitVec.ofNat 8 w, BitVec.ofNat 8 (w / 256)]).toOption
  | _ => none

end Sys2Proof
end

