-- ==== Sys2Proof/Machine/State.lean ====
section
/-! DEFINITION. The state of one block: the four registers and the two buffers of 10_state.md R29, the parameters
the machine is built with, and the model's own fields for what lies outside the block (requests in, outputs out)
and for the free reset contents. -/

namespace Sys2Proof.Machine

/-- R57: the three results of `DEC.ACCEPT`. -/
inductive Result where
  | pending
  | frameComplete
  | abort
  deriving DecidableEq, Repr

/-- What the host port returns (R103, R105, R108). -/
inductive ReadBack where
  | cursor (n : Nat)
  | cell (b : Byte)
  deriving DecidableEq, Repr

/-- The cells of a buffer that have been written since the last reset, by address. An address that is not
listed has no byte here; what it reads as is `State.unlisted`, in Ops.lean. -/
abbrev Memory := List Host.Cell

/-- The canonical form: addresses strictly rising, so that an address is listed at most once. -/
def Memory.wf : Memory → Bool
  | [] => true
  | [_] => true
  | (a, _) :: (b, v) :: m => a < b && Memory.wf ((b, v) :: m)

/-- The state. `DSTATE` has no field of its own: it is the cell at `decCur` (R17). -/
structure State where
  /-- `TX_SIZE`, `RX_SIZE`, `ESC_RESERVED_POLICY` (R4, R5; log entry 4). -/
  config     : Config
  /-- `enc_cur` (R10). -/
  encCur     : Nat
  /-- `enc_end` (R11). -/
  encEnd     : Nat
  /-- `TXBUF` (R21). -/
  txBuf      : Memory
  /-- `dec_cur` (R12). -/
  decCur     : Nat
  /-- `dec_end` (R13). -/
  decEnd     : Nat
  /-- `RXBUF` (R22). -/
  rxBuf      : Memory
  /-- MODEL'S OWN (log entry 5): how many RESET events have happened. -/
  resets     : Nat
  /-- MODEL'S OWN (log entry 1): the host's requests not yet taken, the next one first. -/
  requests   : List Request
  /-- MODEL'S OWN (log entry 3): what `tx_byte` has shown, oldest first. -/
  txBytes    : List Byte
  /-- MODEL'S OWN (log entry 3): what `dec_result` has shown, oldest first. -/
  decResults : List Result
  /-- MODEL'S OWN (log entry 3): what the host port has returned, oldest first. -/
  readBacks  : List ReadBack
  deriving DecidableEq, Repr

/-- R26, R27, R170: a block with the given parameters right after reset: registers zero, no cell written,
nothing requested and nothing returned yet. -/
def State.resetWith (c : Config) : State :=
  { config := c, encCur := 0, encEnd := 0, txBuf := [], decCur := 0, decEnd := 0, rxBuf := [],
    resets := 0, requests := [], txBytes := [], decResults := [], readBacks := [] }

/-- The machine right after reset, with the parameters of log entry 4. -/
def State.reset : State := State.resetWith Config.standard

/-- Why the machine stops with a fault. -/
inductive Fault where
  /-- Raised by a unit operation that would access a cell at or above the size of its space (R34). SAFE: R39
  shows that no state within the cursor invariant R14 (e) does this, and no load or step leaves it (log entry 9). -/
  | noSuchCell (space : Space) (address : Nat)
  deriving DecidableEq, Repr

/-- Why an operation is refused. -/
inductive Refusal where
  /-- An instruction without a meaning, by its mnemonic; no arm of `exec` raises it. SAFE. -/
  | notModelled (mnemonic : String)
  /-- `ENC.LOAD` or `DEC.LOAD` outside `s <= e <= SIZE`, and the pseudo-operations that load so (R100, R101, R107,
  R109; 93 V1): "the model gives the run no further meaning". SAFE. -/
  | loadOutOfRange
  /-- `TX.WRITE`, `TX.READ`, `RX.WRITE`, `RX.READ` outside the buffer, and `TX.FRAME` that does not fit (R102 to
  R105, R107; 93 V4, V5). SAFE. -/
  | addressOutOfRange
  /-- `DEC.SEED` with `dec_cur == dec_end`, and `RX.OPEN s, e` with `s == e` (R106, R109; 93 V5). SAFE. -/
  | noCellToSeed
  /-- `exec` given a case that the state does not select (R60, R61, R68): the host cannot request it, and `step`
  never gives it (log entry 8). SAFE. -/
  | caseNotSelected
  deriving DecidableEq, Repr

/-- One outcome of this machine. -/
abbrev Out := Host.Outcome State Fault Refusal

end Sys2Proof.Machine
end

