-- ==== Sys2Proof/Machine/Ops.lean ====
section
/-! DEFINITION. The named operations over the buffers and the registers, and the sequencing of outcomes. This block
takes no exception: no event saves state, changes a mode or transfers control (60_exceptions.md R140, R150); its one
error indication is the result `Abort`, which `decReturn` puts on the output port like any other result. -/

namespace Sys2Proof.Machine

/-! ### One buffer as a list of cells -/

/-- The byte listed at an address, if any. -/
def Memory.lookup : Memory → Nat → Option Byte
  | [], _ => none
  | (b, v) :: m, a => if b = a then some v else Memory.lookup m a

/-- The list with `v` at address `a`, in rising order. -/
def Memory.insert : Memory → Nat → Byte → Memory
  | [], a, v => [(a, v)]
  | (b, w) :: m, a, v =>
    if a < b then (a, v) :: (b, w) :: m
    else if a = b then (a, v) :: m
    else (b, w) :: Memory.insert m a v

/-! ### The two spaces of a state -/

/-- `SIZE_S` (R34). -/
def State.size (s : State) : Space → Nat
  | .tx => s.config.txSize
  | .rx => s.config.rxSize

/-- The written cells of a space. -/
def State.mem (s : State) : Space → Memory
  | .tx => s.txBuf
  | .rx => s.rxBuf

/-- A state with other written cells in one space. -/
def State.setMem (s : State) (space : Space) (m : Memory) : State :=
  match space with
  | .tx => { s with txBuf := m }
  | .rx => { s with rxBuf := m }

/-- What an address that is not listed reads as: the unspecified content the last reset left in the cell (R27,
R34), a free value (log entries 5 and 6). -/
def State.unlisted (s : State) (space : Space) (a : Nat) : Byte := Config.resetCell space s.resets a

/-- R34: `MemRead(S, a, 1)`; `none` where the spec has no such cell. It has no side effect. -/
def State.memRead (s : State) (space : Space) (a : Nat) : Option Byte :=
  if a < s.size space then some (((s.mem space).lookup a).getD (s.unlisted space a)) else none

/-- A state whose cell `a` of a space holds `v`; no other cell changes (R34). -/
def State.put (s : State) (space : Space) (a : Nat) (v : Byte) : State :=
  s.setMem space ((s.mem space).insert a v)

/-- R34: `MemWrite(S, a, 1, v)`; `none` where the spec has no such cell. -/
def State.memWrite (s : State) (space : Space) (a : Nat) (v : Byte) : Option State :=
  if a < s.size space then some (s.put space a v) else none

/-! ### Outcomes -/

/-- Goes on with a next state; a fault or a refusal stays. -/
def andThen (o : Out) (k : State → Out) : Out :=
  match o with
  | .next s => k s
  | .fault f => .fault f
  | .refused r => .refused r

/-- A unit's own write: the cell must exist (R39; log entry 9). -/
def store (space : Space) (a : Nat) (v : Byte) (s : State) : Out :=
  match s.memWrite space a v with
  | some t => .next t
  | none => .fault (.noSuchCell space a)

/-! ### Registers -/

/-- R100: `enc_cur <- s`, `enc_end <- e`. -/
def State.setEncWindow (st : State) (s e : Nat) : State := { st with encCur := s, encEnd := e }

/-- R101: `dec_cur <- s`, `dec_end <- e`. -/
def State.setDecWindow (st : State) (s e : Nat) : State := { st with decCur := s, decEnd := e }

/-- R73: `enc_cur <- enc_cur + 1`, on natural numbers: it does not wrap (R14, R59 (f)). -/
def State.advanceEnc (s : State) : State := { s with encCur := s.encCur + 1 }

/-- R89: `dec_cur <- dec_cur + 1`. -/
def State.advanceDec (s : State) : State := { s with decCur := s.decCur + 1 }

/-! ### Outputs (R49; log entry 3) -/

/-- `return b` of `ENC.NEXT`: the byte stands on `tx_byte`. -/
def encReturn (b : Byte) (s : State) : State := { s with txBytes := s.txBytes ++ [b] }

/-- `return r` of `DEC.ACCEPT`: the result stands on `dec_result`. The one place an `Abort` is raised (R140). -/
def decReturn (r : Result) (s : State) : State := { s with decResults := s.decResults ++ [r] }

/-- A host operation's returned value. -/
def hostReturn (v : ReadBack) (s : State) : State := { s with readBacks := s.readBacks ++ [v] }

/-! ### Shared parts of the case rules -/

/-- R89, the advance-and-prepare step: the end of cases `UNESC` and `DATA`. -/
def advanceAndPrepare (s : State) : Out :=
  let t := s.advanceDec
  if t.decCur = t.decEnd then .next (decReturn .abort t)
  else andThen (store .rx t.decCur 0x7E#8 t) (fun u => .next (decReturn .pending u))

/-- R82 and R87: a data byte takes the place of the state marker, and the cursor moves past it. -/
def storeAndAdvance (v : Byte) (s : State) : Out :=
  andThen (store .rx s.decCur v s) advanceAndPrepare

end Sys2Proof.Machine
end

