-- ==== Sys2Proof/Machine/Operands.lean ====
section
/-! DEFINITION. The implicit operands: the guard and the cell each unit reads (30_encoding.md R56, R57, R60, R61),
the selector a request forms from the state, and the test that a case makes of its condition. -/

namespace Sys2Proof.Machine

/-- A unit's cell at its cursor, `none` at the guard. The only test between a cursor and its bound is equality
(R14 (c)); a cursor past its space has no cell to read (log entry 9). -/
def cellAtCursor (space : Space) (cur bound : Nat) (s : State) : Except Fault (Option Byte) :=
  if cur = bound then .ok none
  else
    match s.memRead space cur with
    | some b => .ok (some b)
    | none => .error (.noSuchCell space cur)

/-- R60: the guard and the byte `b = TXBUF[enc_cur]` of `ENC.NEXT`. -/
def encCell (s : State) : Except Fault (Option Byte) := cellAtCursor .tx s.encCur s.encEnd s

/-- R17, R61: the guard and the state register `DSTATE = RXBUF[dec_cur]` of `DEC.ACCEPT`. -/
def decState (s : State) : Except Fault (Option Byte) := cellAtCursor .rx s.decCur s.decEnd s

/-- What the hardware fetches in place of an instruction: the selector of the request in this state. -/
def select (s : State) : Request → Except Fault Selector
  | .encNext => (encCell s).map Selector.enc
  | .decAccept val => (decState s).map (fun state => Selector.dec state val)
  | .host op => .ok (.host op)

/-- Runs a case of a unit when its condition holds of the cell at the cursor; a case that the state does not select
is refused (R68; log entry 8). -/
def inCase (cell : Except Fault (Option Byte)) (condition : Option Byte → Bool) (k : Out) : Out :=
  match cell with
  | .error f => .fault f
  | .ok c => if condition c then k else .refused .caseNotSelected

/-- The five names of `dview` (R20). -/
inductive DView where
  | exhausted | init | ready | escPending | corrupt
  deriving DecidableEq, Repr

/-- R20: the abstract view of the decoder, the tests in the rule's order. -/
def dview (s : State) : DView :=
  if s.decCur = s.decEnd then .exhausted
  else if s.memRead .rx s.decCur = some 0x00#8 then .init
  else if s.memRead .rx s.decCur = some 0x7E#8 then .ready
  else if s.memRead .rx s.decCur = some 0x7D#8 then .escPending
  else .corrupt

end Sys2Proof.Machine
end

