-- ==== Sys2Proof/Machine/Flags.lean ====
section
/-! DEFINITION. The block has no flag, no condition code and no sticky bit (10_state.md R16). In their place stand
the result of `DEC.ACCEPT` and its code on the port (30_encoding.md R69), the cause of an `Abort` as a function for
statements (60_exceptions.md R153), and what the host can tell afterwards (R152). -/

namespace Sys2Proof.Machine

/-- R69: the code of a result on the 8-bit output. -/
def resultCode : Result → Byte
  | .pending => 0x00#8
  | .frameComplete => 0x7E#8
  | .abort => 0x7F#8

/-- The causes of R141 to R145 under the names of R153. -/
inductive AbortCause where
  | exhaustedOnEntry
  | escReserved
  | exhaustedOnAdvance
  | senderAbort
  | corruption
  | none
  deriving DecidableEq, Repr

/-- R153: the cause of the `Abort` that `DEC.ACCEPT val` returns in this state, the lines in the rule's order. A
cursor outside its space, which no reachable state has, reads no cell and counts as corrupt here. -/
def abortCause (s : State) (val : Byte) : AbortCause :=
  if s.decCur = s.decEnd then .exhaustedOnEntry
  else
    match s.memRead .rx s.decCur with
    | Option.none => .corruption
    | some st =>
      if st = ESC ∧ s.config.policy = .abort ∧ (val = ESC ∨ val = ABORT) then .escReserved
      else if st = ESC ∧ s.decCur + 1 = s.decEnd then .exhaustedOnAdvance
      else if (st = INIT ∨ st = FLAG) ∧ val = ABORT then .senderAbort
      else if (st = INIT ∨ st = FLAG) ∧ reserved val = false ∧ s.decCur + 1 = s.decEnd then .exhaustedOnAdvance
      else if legalState st = false then .corruption
      else .none

/-- What R152 lets the host conclude from the cursor and the cell after an `Abort`. -/
inductive Diagnosis where
  | bufferExhausted      -- the cursor is at the bound, either form
  | escReserved          -- the cell holds 0x7D: R145, policy ABORT only
  | senderAbortOrCorrupt -- the cell holds 0x7F
  | bufferCorruption     -- any other illegal value
  | noAbort              -- a legal state other than 0x7D: no `Abort` leaves it
  deriving DecidableEq, Repr

/-- R152: the host's reading of the state an `Abort` left, by `DEC.CUR?` and `RX.READ dec_cur`. -/
def hostDiagnosis (s : State) : Diagnosis :=
  if s.decCur = s.decEnd then .bufferExhausted
  else if s.memRead .rx s.decCur = some 0x7D#8 then .escReserved
  else if s.memRead .rx s.decCur = some 0x7F#8 then .senderAbortOrCorrupt
  else if s.memRead .rx s.decCur = some 0x00#8 ∨ s.memRead .rx s.decCur = some 0x7E#8 then .noAbort
  else .bufferCorruption

end Sys2Proof.Machine
end

