-- ==== Sys2Proof/Machine/Decoder.lean ====
section
/-! DEFINITION. The cases of `DEC.ACCEPT` (41_decoder.md R80 to R89). -/

namespace Sys2Proof.Machine

/-- R82, shared by its three rows: the byte after an `ESC`. Policy `ABORT` turns away the two reserved values with
nothing written (R145; 90_conflicts.md C1). -/
def decUnesc (val : Byte) (s : State) : Out :=
  inCase (decState s) (fun c => c == some 0x7D#8)
    (if s.config.policy = .abort ∧ (val = 0x7D#8 ∨ val = 0x7F#8) then .next (decReturn .abort s)
     else storeAndAdvance (escapeX val) s)

/-- R84, shared by its two rows: the marker of a pending escape is written, the cursor stays. -/
def decEscin (state : Byte) (s : State) : Out :=
  inCase (decState s) (fun c => c == some state)
    (andThen (store .rx s.decCur 0x7D#8 s) (fun t => .next (decReturn .pending t)))

/-- R86, shared by its two rows: the sender's abort is written at the cursor, the cursor stays. -/
def decSabort (state : Byte) (s : State) : Out :=
  inCase (decState s) (fun c => c == some state)
    (andThen (store .rx s.decCur 0x7F#8 s) (fun t => .next (decReturn .abort t)))

/-- R87, shared by its two rows: a literal data byte. -/
def decData (state val : Byte) (s : State) : Out :=
  inCase (decState s) (fun c => c == some state && !reserved val) (storeAndAdvance val s)

/-- R81, case `DEC.ACCEPT.EXH`: no cell is read and `val` has no influence. -/
def execDecAcceptExh (_val : Byte) (s : State) : Out :=
  inCase (decState s) (fun c => c == none) (.next (decReturn .abort s))

/-- R82, row 2: `ESC_PENDING` and `ESC`. -/
def execDecAcceptUnescEsc (s : State) : Out := decUnesc 0x7D#8 s

/-- R82, row 3: `ESC_PENDING` and `ABORT`. -/
def execDecAcceptUnescAbort (s : State) : Out := decUnesc 0x7F#8 s

/-- R82, row 4: `ESC_PENDING` and any other value, `FLAG` among them. -/
def execDecAcceptUnesc (val : Byte) (s : State) : Out :=
  if val = 0x7D#8 ∨ val = 0x7F#8 then .refused .caseNotSelected else decUnesc val s

/-- R83, case `DEC.ACCEPT.SKIP`. -/
def execDecAcceptSkip (s : State) : Out :=
  inCase (decState s) (fun c => c == some 0x00#8) (.next (decReturn .pending s))

/-- R84 in `INIT`. -/
def execDecAcceptEscinInit (s : State) : Out := decEscin 0x00#8 s

/-- R84 in `READY`. -/
def execDecAcceptEscinReady (s : State) : Out := decEscin 0x7E#8 s

/-- R85, case `DEC.ACCEPT.DONE`. The write of `FLAG` over `FLAG` changes no cell and is left out, as the spec allows
(92_eei_decisions.md D16; log entry 11). -/
def execDecAcceptDone (s : State) : Out :=
  inCase (decState s) (fun c => c == some 0x7E#8) (.next (decReturn .frameComplete s))

/-- R86 in `INIT`. -/
def execDecAcceptSabortInit (s : State) : Out := decSabort 0x00#8 s

/-- R86 in `READY`. -/
def execDecAcceptSabortReady (s : State) : Out := decSabort 0x7E#8 s

/-- R87 in `INIT`. -/
def execDecAcceptDataInit (val : Byte) (s : State) : Out := decData 0x00#8 val s

/-- R87 in `READY`. -/
def execDecAcceptDataReady (val : Byte) (s : State) : Out := decData 0x7E#8 val s

/-- R88, case `DEC.ACCEPT.CORRUPT`: nothing is written and `val` has no influence. -/
def execDecAcceptCorrupt (state _val : Byte) (s : State) : Out :=
  inCase (decState s) (fun c => c == some state && !legalState state) (.next (decReturn .abort s))

end Sys2Proof.Machine
end

