-- ==== Sys2Proof/Machine/Encoder.lean ====
section
/-! DEFINITION. The cases of `ENC.NEXT` (40_encoder.md R70 to R73). None of them can fail (R78, R149). -/

namespace Sys2Proof.Machine

/-- R72, shared by its three rows: the raw byte `b` at the cursor is reserved, is rewritten in place, and the escape
byte goes out; the cursor stays. -/
def encStuff (b : Byte) (s : State) : Out :=
  inCase (encCell s) (fun c => c == some b)
    (andThen (store .tx s.encCur (escapeX b) s) (fun t => .next (encReturn 0x7D#8 t)))

/-- R71, case `ENC.NEXT.END`. -/
def execEncNextEnd (s : State) : Out :=
  inCase (encCell s) (fun c => c == none) (.next (encReturn 0x7E#8 s))

/-- R72 with `b == 0x7D`. -/
def execEncNextStuffEsc (s : State) : Out := encStuff 0x7D#8 s

/-- R72 with `b == 0x7E`. -/
def execEncNextStuffFlag (s : State) : Out := encStuff 0x7E#8 s

/-- R72 with `b == 0x7F`. -/
def execEncNextStuffAbort (s : State) : Out := encStuff 0x7F#8 s

/-- R73, case `ENC.NEXT.LIT`: `b` is not reserved. -/
def execEncNextLit (b : Byte) (s : State) : Out :=
  inCase (encCell s) (fun c => c == some b && !reserved b) (.next (encReturn b s.advanceEnc))

end Sys2Proof.Machine
end

