-- ==== Sys2Proof/Machine/HostOps.lean ====
section
/-! DEFINITION. The host operations, the pseudo-operations and the reset event (42_host_ops.md R100 to R109;
70_reset_and_hazards.md R170). None is privileged (60_exceptions.md R159). A refused operation has no effect and the
run has no further meaning (R100; 92_eei_decisions.md D6). -/

namespace Sys2Proof.Machine

/-- R100, `ENC.LOAD s, e`. -/
def execEncLoad (s e : Nat) (st : State) : Out :=
  if s ≤ e ∧ e ≤ st.size .tx then .next (st.setEncWindow s e) else .refused .loadOutOfRange

/-- R101, `DEC.LOAD s, e`: it does not seed. -/
def execDecLoad (s e : Nat) (st : State) : Out :=
  if s ≤ e ∧ e ≤ st.size .rx then .next (st.setDecWindow s e) else .refused .loadOutOfRange

/-- R102, R104: a host write of one cell. -/
def hostWrite (space : Space) (a : Nat) (v : Byte) (st : State) : Out :=
  match st.memWrite space a v with
  | some t => .next t
  | none => .refused .addressOutOfRange

/-- R103, R105: a host read of one cell; it changes no cell and no register. -/
def hostRead (space : Space) (a : Nat) (st : State) : Out :=
  match st.memRead space a with
  | some b => .next (hostReturn (.cell b) st)
  | none => .refused .addressOutOfRange

/-- R102, `TX.WRITE a, v`. -/
def execTxWrite (a : Nat) (v : Byte) (st : State) : Out := hostWrite .tx a v st

/-- R103, `TX.READ a`. -/
def execTxRead (a : Nat) (st : State) : Out := hostRead .tx a st

/-- R104, `RX.WRITE a, v`. -/
def execRxWrite (a : Nat) (v : Byte) (st : State) : Out := hostWrite .rx a v st

/-- R105, `RX.READ a`. -/
def execRxRead (a : Nat) (st : State) : Out := hostRead .rx a st

/-- R108, `ENC.CUR?`. -/
def execEncCur (st : State) : Out := .next (hostReturn (.cursor st.encCur) st)

/-- R108, `DEC.CUR?`. -/
def execDecCur (st : State) : Out := .next (hostReturn (.cursor st.decCur) st)

/-- R108: the bounds read back as loaded; the spec allows the reading and names no operation for it (log entry 15). -/
def readBounds (st : State) : Nat × Nat := (st.encEnd, st.decEnd)

/-- R106, `DEC.SEED`: `RX.WRITE dec_cur, 0x00`, defined only when `dec_cur != dec_end`. -/
def execDecSeed (st : State) : Out :=
  if st.decCur = st.decEnd then .refused .noCellToSeed else execRxWrite st.decCur 0x00#8 st

/-- R107: `TX.WRITE s + i, bi` for each `i`, in order. -/
def writeFrame : Nat → List Byte → State → Out
  | _, [], st => .next st
  | s, b :: bytes, st => andThen (execTxWrite s b st) (writeFrame (s + 1) bytes)

/-- R107, `TX.FRAME s, [b0, ..., bn-1]`: the writes, then `ENC.LOAD s, s + n`. -/
def execTxFrame (s : Nat) (bytes : List Byte) (st : State) : Out :=
  andThen (writeFrame s bytes st) (execEncLoad s (s + bytes.length))

/-- R109, `RX.OPEN s, e`: `DEC.LOAD s, e`, then `DEC.SEED`. -/
def execRxOpen (s e : Nat) (st : State) : Out := andThen (execDecLoad s e st) execDecSeed

/-- R26, R27, R170: the four registers are zero and every cell holds an unspecified byte: no cell is listed any more,
and the free contents are those of the next reset (log entry 5). The event touches nothing else (log entry 14). -/
def execReset (st : State) : Out :=
  .next { st with encCur := 0, encEnd := 0, txBuf := [], decCur := 0, decEnd := 0, rxBuf := [],
                  resets := st.resets + 1 }

end Sys2Proof.Machine
end

