-- ==== Sys2Proof/Machine/Dispatch.lean ====
section
/-! DEFINITION. One arm per constructor of Instr, each a direct call of that case's or operation's meaning. -/

namespace Sys2Proof.Machine

def exec (i : Instr) (s : State) : Host.Outcome State Fault Refusal :=
  match i with
  -- ENC.NEXT, 40_encoder.md
  | .encNextEnd => Sys2Proof.Machine.execEncNextEnd s
  | .encNextStuffEsc => Sys2Proof.Machine.execEncNextStuffEsc s
  | .encNextStuffFlag => Sys2Proof.Machine.execEncNextStuffFlag s
  | .encNextStuffAbort => Sys2Proof.Machine.execEncNextStuffAbort s
  | .encNextLit b => Sys2Proof.Machine.execEncNextLit b s
  -- DEC.ACCEPT, 41_decoder.md
  | .decAcceptExh val => Sys2Proof.Machine.execDecAcceptExh val s
  | .decAcceptUnescEsc => Sys2Proof.Machine.execDecAcceptUnescEsc s
  | .decAcceptUnescAbort => Sys2Proof.Machine.execDecAcceptUnescAbort s
  | .decAcceptUnesc val => Sys2Proof.Machine.execDecAcceptUnesc val s
  | .decAcceptSkip => Sys2Proof.Machine.execDecAcceptSkip s
  | .decAcceptEscinInit => Sys2Proof.Machine.execDecAcceptEscinInit s
  | .decAcceptEscinReady => Sys2Proof.Machine.execDecAcceptEscinReady s
  | .decAcceptDone => Sys2Proof.Machine.execDecAcceptDone s
  | .decAcceptSabortInit => Sys2Proof.Machine.execDecAcceptSabortInit s
  | .decAcceptSabortReady => Sys2Proof.Machine.execDecAcceptSabortReady s
  | .decAcceptDataInit val => Sys2Proof.Machine.execDecAcceptDataInit val s
  | .decAcceptDataReady val => Sys2Proof.Machine.execDecAcceptDataReady val s
  | .decAcceptCorrupt state val => Sys2Proof.Machine.execDecAcceptCorrupt state val s
  -- host operations, 42_host_ops.md
  | .encLoad a e => Sys2Proof.Machine.execEncLoad a e s
  | .decLoad a e => Sys2Proof.Machine.execDecLoad a e s
  | .txWrite a v => Sys2Proof.Machine.execTxWrite a v s
  | .txRead a => Sys2Proof.Machine.execTxRead a s
  | .rxWrite a v => Sys2Proof.Machine.execRxWrite a v s
  | .rxRead a => Sys2Proof.Machine.execRxRead a s
  | .encCur => Sys2Proof.Machine.execEncCur s
  | .decCur => Sys2Proof.Machine.execDecCur s
  | .decSeed => Sys2Proof.Machine.execDecSeed s
  | .txFrame a bytes => Sys2Proof.Machine.execTxFrame a bytes s
  | .rxOpen a e => Sys2Proof.Machine.execRxOpen a e s
  -- the reset event, 70_reset_and_hazards.md
  | .reset => Sys2Proof.Machine.execReset s

end Sys2Proof.Machine
end

