-- ==== Sys2Proof/Machine/Perform.lean ====
section
/-! DEFINITION. One operation as the host requests it: the selector is formed from the state, decoded into a case,
and the case runs (42_host_ops.md R110). One operation is one atomic step (00_scope.md R7). -/

namespace Sys2Proof.Machine

/-- One requested operation. -/
def perform (r : Request) (s : State) : Out :=
  match select s r with
  | .error f => .fault f
  | .ok sel => exec (decode sel) s

/-- R110: a sequence of operations, applied one after the other. -/
def performAll : List Request → State → Out
  | [], s => .next s
  | r :: rs, s => andThen (perform r s) (performAll rs)

/-- The operation of a step: the next request is taken off and performed. With no request the block is idle and holds
its state (60_exceptions.md R147, R164; log entry 2). -/
def performNext (s : State) : Out :=
  match s.requests with
  | [] => .next s
  | r :: rest => perform r { s with requests := rest }

/-- A window of two cells from address 0 where the encoder has none loaded, for `withFetchWord`. -/
def encReady (s : State) : State := if s.encCur = s.encEnd then s.setEncWindow 0 2 else s

/-- The same for the decoder. -/
def decReady (s : State) : State := if s.decCur = s.decEnd then s.setDecWindow 0 2 else s

/-- Places a selector byte of `ENC.NEXT` where the next step reads it (log entry 13). -/
def placeEnc (b : Byte) (s : State) : State :=
  let t := encReady s
  { t.put .tx t.encCur b with requests := .encNext :: s.requests }

/-- Places a selector word of `DEC.ACCEPT`: the state at the cursor, the operand in the request (log entry 13). -/
def placeDec (state val : Byte) (s : State) : State :=
  let t := decReady s
  { t.put .rx t.decCur state with requests := .decAccept val :: s.requests }

end Sys2Proof.Machine
end

