-- ==== Sys2Proof/Machine/Step.lean ====
section
/-! DEFINITION. One step of the machine, and how a word of the opcode table is placed so that the next step runs it. -/

namespace Sys2Proof.Machine

/-- One step: the next request of the host, or nothing when there is none. -/
def step (s : State) : Host.Outcome State Fault Refusal := performNext s

/-- The state in which the next step runs the table's row with this word (log entries 12 and 13). -/
def State.withFetchWord (s : State) (nbits w : Nat) : State :=
  match nbits with
  | 8 => placeEnc (BitVec.ofNat 8 w) s
  | 16 => placeDec (BitVec.ofNat 8 (w / 256)) (BitVec.ofNat 8 w) s
  | _ => s

end Sys2Proof.Machine
end

