-- ==== Sys2Proof/Machine/Frame.lean ====
section
/-! DEFINITION. What the spec says of whole frames and streams: the wire format (30_encoding.md R52, R53), `stuff`
(40_encoder.md R74), `unstuff` and `dec_feed` (43_frame_protocol.md R115, R116), and the runs of a unit. These are
functions over lists of bytes and over `performAll`; they add no behaviour. -/

namespace Sys2Proof.Machine

/-- R74: the body of the wire format for a raw frame. -/
def stuff : List Byte → List Byte
  | [] => []
  | b :: rest => if reserved b then ESC :: escapeX b :: stuff rest else b :: stuff rest

/-- R116: the inverse of `stuff` on conforming bodies. DESIGN CHOICE (log entry 18): where the rule has no equation, a
lone trailing `ESC` and a `FLAG` or `ABORT` outside an escape, the byte is kept as it is. -/
def unstuff : List Byte → List Byte
  | [] => []
  | [b] => [b]
  | b :: v :: rest => if b = ESC then escapeX v :: unstuff rest else b :: unstuff (v :: rest)

/-- R75: `k`, the number of reserved bytes of a frame. -/
def reservedCount (c : List Byte) : Nat := (c.filter reserved).length

/-- R76: the content of the window after its body has been sent. -/
def mutated (c : List Byte) : List Byte := c.map (fun b => if reserved b then escapeX b else b)

/-- R52: `item*`: the bodies a conforming sender produces, the empty one included. -/
def conformingItems : List Byte → Bool
  | [] => true
  | [b] => !reserved b
  | b :: v :: rest =>
    if b = ESC then (v == 0x5D#8 || v == 0x5E#8 || v == 0x5F#8) && conformingItems rest
    else !reserved b && conformingItems (v :: rest)

/-- R52: `body = item item*`, at least one item (R94). -/
def conformingBody (w : List Byte) : Bool := !w.isEmpty && conformingItems w

/-- R115: `dec_feed(D, w)`: the bytes in order, with no host operation in between; the results are those appended to
`decResults`. -/
def decFeed (w : List Byte) (s : State) : Out := performAll (w.map Request.decAccept) s

/-- `k` requests of `ENC.NEXT`, with nothing in between (R74); the bytes are those appended to `txBytes`. -/
def encRun (k : Nat) (s : State) : Out := performAll (List.replicate k Request.encNext) s

/-- R117, R122: the cells from address `a` of a space hold `bytes`, in order. -/
def holds (s : State) (space : Space) (a : Nat) (bytes : List Byte) : Prop :=
  ∀ i b, bytes[i]? = some b → s.memRead space (a + i) = some b

end Sys2Proof.Machine
end

