-- ==== Sys2Proof/Machine/HostProcedures.lean ====
section
/-! DEFINITION. The procedures the spec gives the host over the operations: the loop that carries bytes from `ENC` to
`DEC` (43_frame_protocol.md R122) and its receive half (70_reset_and_hazards.md R188), and resynchronisation
(60_exceptions.md R154, R156). They are the host's, not the block's, and run through `perform` alone. -/

namespace Sys2Proof.Machine

/-- R122: one round, `t <- ENC.NEXT`, then `res <- DEC.ACCEPT t`. -/
def loopRound (s : State) : Out :=
  andThen (perform .encNext s) (fun t =>
    match t.txBytes.getLast? with
    | some b => perform (.decAccept b) t
    | none => .next t)

/-- R122: rounds until a result is not `Pending`, at most `fuel` of them; the state reached and the rounds taken. -/
def loopback : Nat → State → Host.Outcome (State × Nat) Fault Refusal
  | 0, s => .next (s, 0)
  | fuel + 1, s =>
    match loopRound s with
    | .fault f => .fault f
    | .refused r => .refused r
    | .next t =>
      if t.decResults.getLast? = some .pending then
        match loopback fuel t with
        | .next (u, n) => .next (u, n + 1)
        | .fault f => .fault f
        | .refused r => .refused r
      else .next (t, 1)

/-- R188: the host's receive loop: feeds wire bytes until a result is not `Pending`; the state reached and the bytes
not fed. -/
def receive : List Byte → State → Host.Outcome (State × List Byte) Fault Refusal
  | [], s => .next (s, [])
  | b :: w, s =>
    match perform (.decAccept b) s with
    | .fault f => .fault f
    | .refused r => .refused r
    | .next t => if t.decResults.getLast? = some .pending then receive w t else .next (t, w)

/-- R154, step 3: the wire after the next `FLAG`, `none` while no `FLAG` has been seen on it. -/
def dropToFlag : List Byte → Option (List Byte)
  | [] => none
  | b :: w => if b = FLAG then some w else dropToFlag w

/-- R154, step 3: the wire after the observed `FLAG`; the byte `b` that got the `Abort` counts as that `FLAG` if it was
one. -/
def observedFlag (b : Byte) (w : List Byte) : Option (List Byte) := if b = FLAG then some w else dropToFlag w

/-- R129, R154: what the host requests after an `Abort` on byte `b`, `w` being the wire that follows. Step 1 is the
reading of the cursor, which `hostDiagnosis` compares with the bound. Step 2 is the host's own and requests nothing.
Steps 4 and 5, the opening of a window and the feeding of the rest, come only once step 3 has seen a `FLAG`; on a wire
without one the host goes on dropping. -/
def resync (b : Byte) (w : List Byte) (s e : Nat) : List Request :=
  .host .decCur ::
    match observedFlag b w with
    | some rest => .host (.rxOpen s e) :: rest.map Request.decAccept
    | none => []

/-- R156: after `FrameComplete` a window is opened and no byte is dropped. -/
def nextFrame (w : List Byte) (s e : Nat) : List Request :=
  .host (.rxOpen s e) :: w.map Request.decAccept

/-- R95: how the host takes the frame after `FrameComplete`: it reads the cursor, then the cells `s .. dec_cur - 1`. -/
def takeFrame (s : Nat) (st : State) : List Request :=
  .host .decCur :: (List.range (st.decCur - s)).map (fun i => Request.host (.rxRead (s + i)))

end Sys2Proof.Machine
end

