-- ==== Sys2Proof/Machine/Instances.lean ====
section
/-! DEFINITION. Several instances of the block (60_exceptions.md R162): the product of their states. They share nothing. That
blocks with the same number of resets have the same unwritten contents is the model's choice (log entry 19). -/

namespace Sys2Proof.Machine

/-- A step of instance `k`; `none` where there is no such instance. -/
def stepInstance (k : Nat) (blocks : List State) : Option (Host.Outcome (List State) Fault Refusal) :=
  match blocks[k]? with
  | none => none
  | some s =>
    match step s with
    | .next t => some (.next (blocks.set k t))
    | .fault f => some (.fault f)
    | .refused r => some (.refused r)

end Sys2Proof.Machine
end

