-- ==== Sys2Proof/Machine/Ports.lean ====
section
/-! DEFINITION. The accesses each unit makes on its memory port, complete and in order (20_memory.md R35, R36; 41_decoder.md
R90; the ports of 30_encoding.md R49), as functions of the state before the operation. -/

namespace Sys2Proof.Machine

/-- One access of width one byte. -/
inductive Access where
  | read (space : Space) (a : Nat)
  | write (space : Space) (a : Nat) (v : Byte)
  deriving DecidableEq, Repr

/-- The cell an access names. -/
def Access.address : Access → Nat
  | .read _ a => a
  | .write _ a _ => a

/-- The space an access names. -/
def Access.space : Access → Space
  | .read sp _ => sp
  | .write sp _ _ => sp

/-- R35: the accesses of `ENC.NEXT`. -/
def encAccesses (s : State) : List Access :=
  match encCell s with
  | .error _ => []
  | .ok none => []
  | .ok (some b) =>
    .read .tx s.encCur :: (if reserved b then [.write .tx s.encCur (escapeX b)] else [])

/-- R36, R90: the write an advance makes at the new cursor. -/
def advanceAccesses (s : State) : List Access :=
  if s.decCur + 1 = s.decEnd then [] else [.write .rx (s.decCur + 1) FLAG]

/-- R36, R90: the accesses of `DEC.ACCEPT val`. The write of case DONE is listed as the document has it (R85). -/
def decAccesses (val : Byte) (s : State) : List Access :=
  match decState s with
  | .error _ => []
  | .ok none => []
  | .ok (some st) =>
    .read .rx s.decCur ::
      (match decodeDec (some st) val with
       | .decAcceptUnescEsc | .decAcceptUnescAbort =>
         if s.config.policy = .abort then [] else .write .rx s.decCur (escapeX val) :: advanceAccesses s
       | .decAcceptUnesc _ => .write .rx s.decCur (escapeX val) :: advanceAccesses s
       | .decAcceptEscinInit | .decAcceptEscinReady => [.write .rx s.decCur ESC]
       | .decAcceptDone => [.write .rx s.decCur FLAG]
       | .decAcceptSabortInit | .decAcceptSabortReady => [.write .rx s.decCur ABORT]
       | .decAcceptDataInit _ | .decAcceptDataReady _ => .write .rx s.decCur val :: advanceAccesses s
       | _ => [])

/-- What a cell reads as once a list of accesses has been made on a cell that read `before`: the latest write to it, or
what it held (R34). -/
def readAfter (space : Space) (a : Nat) (before : Option Byte) : List Access → Option Byte
  | [] => before
  | .read _ _ :: rest => readAfter space a before rest
  | .write sp b v :: rest => readAfter space a (if sp = space ∧ b = a then some v else before) rest

end Sys2Proof.Machine
end

