-- ==== Sys2Proof/Safety.lean ====
section
/-! DEFINITION. The terms in which statements speak of states: the invariant of R14 (e) with the canonical form of the
buffers, what it means that a part of the state is unchanged, and the effects that several cases share. -/

namespace Sys2Proof.Machine

/-- R14 (e), R29: `cur <= end <= SIZE` on both units. -/
abbrev State.WindowsOk (s : State) : Prop :=
  s.encCur ≤ s.encEnd ∧ s.encEnd ≤ s.size .tx ∧ s.decCur ≤ s.decEnd ∧ s.decEnd ≤ s.size .rx

/-- Every listed cell of both buffers exists (R38). -/
abbrev State.CellsExist (s : State) : Prop :=
  (∀ c ∈ s.txBuf, c.1 < s.size .tx) ∧ (∀ c ∈ s.rxBuf, c.1 < s.size .rx)

/-- The invariant that every step keeps. -/
abbrev State.Inv (s : State) : Prop :=
  s.WindowsOk ∧ s.txBuf.wf = true ∧ s.rxBuf.wf = true ∧ s.CellsExist

/-- Nothing outside the two units changed: the parameters, the waiting requests, the number of resets and what the
host port has returned. -/
def SameOutside (s t : State) : Prop :=
  t.config = s.config ∧ t.requests = s.requests ∧ t.resets = s.resets ∧ t.readBacks = s.readBacks

/-- The encoder unit is unchanged: its registers, every cell of `TXBUF` as it reads, and its output. -/
def SameEncoder (s t : State) : Prop :=
  t.encCur = s.encCur ∧ t.encEnd = s.encEnd ∧ (∀ a, t.memRead .tx a = s.memRead .tx a) ∧ t.txBytes = s.txBytes

/-- The decoder unit is unchanged: its registers, every cell of `RXBUF` as it reads, and its output. -/
def SameDecoder (s t : State) : Prop :=
  t.decCur = s.decCur ∧ t.decEnd = s.decEnd ∧ (∀ a, t.memRead .rx a = s.memRead .rx a) ∧
    t.decResults = s.decResults

/-- Every cell of a space but those of a list of addresses reads as before. -/
def SameCellsBut (space : Space) (written : List Nat) (s t : State) : Prop :=
  ∀ a, a ∉ written → t.memRead space a = s.memRead space a

/-- The effect of R84 and R86: `v` is written at the decoder's cursor, `r` is returned, and nothing else changes. -/
def MarkerWritten (v : Byte) (r : Result) (s t : State) : Prop :=
  t.memRead .rx s.decCur = some v ∧ SameCellsBut .rx [s.decCur] s t ∧
    t.decCur = s.decCur ∧ t.decEnd = s.decEnd ∧ t.decResults = s.decResults ++ [r] ∧
    SameEncoder s t ∧ SameOutside s t

/-- The effect of R89 after a data byte `v` has been stored at the cursor: the cursor moves on by one; at the bound the
result is `Abort` and no marker is written, else `FLAG` is written at the new cursor and the result is `Pending`. -/
def DataStored (v : Byte) (s t : State) : Prop :=
  t.memRead .rx s.decCur = some v ∧ t.decCur = s.decCur + 1 ∧ t.decEnd = s.decEnd ∧
    (if s.decCur + 1 = s.decEnd then
       t.decResults = s.decResults ++ [.abort] ∧ SameCellsBut .rx [s.decCur] s t
     else
       t.decResults = s.decResults ++ [.pending] ∧ t.memRead .rx (s.decCur + 1) = some 0x7E#8 ∧
         SameCellsBut .rx [s.decCur, s.decCur + 1] s t) ∧
    SameEncoder s t ∧ SameOutside s t

/-- R91: the corrected state table: the result and the next state, from the state, the policy, whether the cursor is at
the last cell of the window, and the received byte. -/
def stateTable (policy : EscReservedPolicy) (last : Bool) (val : Byte) : DView → Result × DView
  | .exhausted => (.abort, .exhausted)
  | .corrupt => (.abort, .corrupt)
  | .escPending =>
    if policy = .abort ∧ (val = 0x7D#8 ∨ val = 0x7F#8) then (.abort, .escPending)
    else if last then (.abort, .exhausted) else (.pending, .ready)
  | .init =>
    if val = 0x7E#8 then (.pending, .init)
    else if val = 0x7D#8 then (.pending, .escPending)
    else if val = 0x7F#8 then (.abort, .corrupt)
    else if last then (.abort, .exhausted) else (.pending, .ready)
  | .ready =>
    if val = 0x7E#8 then (.frameComplete, .ready)
    else if val = 0x7D#8 then (.pending, .escPending)
    else if val = 0x7F#8 then (.abort, .corrupt)
    else if last then (.abort, .exhausted) else (.pending, .ready)

/-- The same state with other contents of the three output records. -/
def State.withOutputs (s : State) (tx : List Byte) (dec : List Result) (host : List ReadBack) : State :=
  { s with txBytes := tx, decResults := dec, readBacks := host }

end Sys2Proof.Machine
end

