-- ==== Sys2Proof/Certificates/Slice0/Obligations.lean ====
section
/-! DEFINITION. The statements for the provers, each from the rules it cites. Byte values are written
out. That an operation returns a value is stated as its being appended to the model's record of outputs (log entry 3). -/

open Sys2Proof Sys2Proof.Machine

/-! ### Encodings -/

/-- Decode and encode agree (R60 to R62): every well-formed instruction is decoded back from its selector, with every
operand at every value its row admits, and from its bytes where it has any. The layout of a selector in bytes is the
model's choice (log entry 12). -/
def Obligations.DecodeEncodeAgree : Prop :=
  ∀ i : Instr, i.wellFormed = true →
    decode (encode i) = i ∧
    ∀ bytes, encodeBytes i = some bytes → decodeBytes (encode i).format bytes = .ok i

/-- The other direction (R62, R66): every selector decodes, to a well-formed instruction whose selector it is. -/
def Obligations.EverySelectorDecodes : Prop :=
  ∀ sel : Selector, (decode sel).wellFormed = true ∧ encode (decode sel) = sel

/-- Selector values written out from R60 and R61. Their layout in bytes is the model's choice (log entry 12): the operand
byte first, the state byte second, no byte for the cell that the guard does not read. -/
def Obligations.TableWordsDecode : Prop :=
  decodeBytes .enc [] = .ok .encNextEnd ∧
  decodeBytes .enc [0b01111110#8] = .ok .encNextStuffFlag ∧
  decodeBytes .enc [0b01011110#8] = .ok (.encNextLit 0b01011110#8) ∧
  decodeBytes .dec [0b01111110#8, 0b00000000#8] = .ok .decAcceptSkip ∧
  decodeBytes .dec [0b01111110#8, 0b01111110#8] = .ok .decAcceptDone ∧
  decodeBytes .dec [0b01111110#8, 0b01111101#8] = .ok (.decAcceptUnesc 0b01111110#8) ∧
  decodeBytes .dec [0b00000000#8, 0b01111111#8] = .ok (.decAcceptCorrupt 0b01111111#8 0b00000000#8)

/-- R60: the rows of `ENC.NEXT`, tried from the top, the guard first. -/
def Obligations.EncNextRowOrder : Prop :=
  ∀ s : State,
    (s.encCur = s.encEnd → perform .encNext s = exec .encNextEnd s) ∧
    (∀ b, s.encCur ≠ s.encEnd → s.memRead .tx s.encCur = some b →
      perform .encNext s =
        exec (if b = 0x7D#8 then .encNextStuffEsc
              else if b = 0x7E#8 then .encNextStuffFlag
              else if b = 0x7F#8 then .encNextStuffAbort
              else .encNextLit b) s)

/-- R61, R80: the tests of `DEC.ACCEPT` in their order. -/
def Obligations.DecAcceptTestOrder : Prop :=
  ∀ (s : State) (val : Byte),
    (s.decCur = s.decEnd → perform (.decAccept val) s = exec (.decAcceptExh val) s) ∧
    (∀ st, s.decCur ≠ s.decEnd → s.memRead .rx s.decCur = some st →
      perform (.decAccept val) s =
        exec (if st = 0x7D#8 then
                (if val = 0x7D#8 then .decAcceptUnescEsc
                 else if val = 0x7F#8 then .decAcceptUnescAbort
                 else .decAcceptUnesc val)
              else if st = 0x00#8 ∨ st = 0x7E#8 then
                (if st = 0x00#8 ∧ val = 0x7E#8 then .decAcceptSkip
                 else if val = 0x7D#8 then (if st = 0x00#8 then .decAcceptEscinInit else .decAcceptEscinReady)
                 else if val = 0x7E#8 then .decAcceptDone
                 else if val = 0x7F#8 then (if st = 0x00#8 then .decAcceptSabortInit else .decAcceptSabortReady)
                 else (if st = 0x00#8 then .decAcceptDataInit val else .decAcceptDataReady val))
              else .decAcceptCorrupt st val) s)

/-- R58, R59 (a), (c), (d): the escape transform flips bit 5 and nothing else, undoes itself, and gives a reserved byte
exactly for 0x5D, 0x5E and 0x5F. -/
def Obligations.EscapeTransformLaws : Prop :=
  ∀ b : Byte, escapeX b = b ^^^ 0x20#8 ∧ escapeX (escapeX b) = b ∧
    (reserved (escapeX b) = true ↔ b = 0x5D#8 ∨ b = 0x5E#8 ∨ b = 0x5F#8) ∧
    (reserved b = true → reserved (escapeX b) = false)

/-! ### Steps and the invariant -/

/-- A step takes the next request off, and runs the instruction that its selector decodes to (R110). The queue of requests
is the model's (log entry 1). -/
def Obligations.StepRunsDecodedInstruction : Prop :=
  ∀ (s : State) (r : Request) (rest : List Request) (sel : Selector) (i : Instr),
    s.requests = r :: rest → select { s with requests := rest } r = .ok sel → decode sel = i →
    i.wellFormed = true → step s = exec i { s with requests := rest }

/-- With no request the block is idle and holds its state (R164; the model's choice of step, log entry 2). -/
def Obligations.IdleStepChangesNothing : Prop :=
  ∀ s : State, s.requests = [] → step s = .next s

/-- R14 (e), R29: every step keeps `cur <= end <= SIZE` on both units, the canonical form of both buffers, and that they
list only cells that exist. -/
def Obligations.StepKeepsInvariant : Prop :=
  ∀ s t : State, s.Inv → step s = .next t → t.Inv

/-- The invariant holds after reset, whatever the parameters (R26); those of `State.reset` are the model's (log entry 4). -/
def Obligations.ResetMeetsInvariant : Prop :=
  (∀ c : Config, (State.resetWith c).Inv) ∧ State.reset.Inv

/-- Within the invariant, a step of a unit operation never faults and is never refused (R39, R70, R80). -/
def Obligations.UnitStepNeverStops : Prop :=
  ∀ (s : State) (r : Request) (rest : List Request), s.Inv → s.requests = r :: rest →
    (r = .encNext ∨ ∃ val, r = .decAccept val) → ∃ t, step s = .next t

/-- R26, R171: after reset the four registers are zero; with no window loaded `ENC.NEXT` returns 0x7E and `DEC.ACCEPT`
returns `Abort` for ever, and neither changes anything else. -/
def Obligations.ResetRegistersAndFirstOperations : Prop :=
  ∀ c : Config,
    let s := State.resetWith c
    s.encCur = 0 ∧ s.encEnd = 0 ∧ s.decCur = 0 ∧ s.decEnd = 0 ∧
    (∀ k, encRun k s = .next { s with txBytes := List.replicate k 0x7E#8 }) ∧
    (∀ w, decFeed w s = .next { s with decResults := List.replicate w.length .abort })

/-! ### ENC.NEXT -/

/-- R71: the case END returns `FLAG` and changes nothing, and so does every later `ENC.NEXT`. -/
def Obligations.EncEndReturnsFlag : Prop :=
  ∀ s : State, s.encCur = s.encEnd →
    exec .encNextEnd s = .next { s with txBytes := s.txBytes ++ [0x7E#8] } ∧
    ∀ k, encRun k s = .next { s with txBytes := s.txBytes ++ List.replicate k 0x7E#8 }

/-- R72: the case STUFF, for each of its three rows, rewrites the cell at the cursor to `b ^ 0x20` and returns `ESC`; the
cursor stays, nothing else changes, and the next `ENC.NEXT` is case LIT on the same cell. -/
def Obligations.EncStuffRewritesInPlace : Prop :=
  ∀ (s : State) (i : Instr) (b : Byte),
    (i, b) ∈ [(Instr.encNextStuffEsc, 0x7D#8), (Instr.encNextStuffFlag, 0x7E#8), (Instr.encNextStuffAbort, 0x7F#8)] →
    s.encCur ≠ s.encEnd → s.memRead .tx s.encCur = some b →
    ∃ t, exec i s = .next t ∧ t.memRead .tx s.encCur = some (b ^^^ 0x20#8) ∧
      SameCellsBut .tx [s.encCur] s t ∧ t.encCur = s.encCur ∧ t.encEnd = s.encEnd ∧
      t.txBytes = s.txBytes ++ [0x7D#8] ∧ SameDecoder s t ∧ SameOutside s t ∧
      perform .encNext t = exec (.encNextLit (b ^^^ 0x20#8)) t

/-- R73: the case LIT returns the byte at the cursor and moves the cursor on by one; nothing else changes. -/
def Obligations.EncLitReturnsByte : Prop :=
  ∀ (s : State) (b : Byte), s.encCur ≠ s.encEnd → s.memRead .tx s.encCur = some b →
    b ≠ 0x7D#8 → b ≠ 0x7E#8 → b ≠ 0x7F#8 →
    exec (.encNextLit b) s = .next { s with encCur := s.encCur + 1, txBytes := s.txBytes ++ [b] }

/-- The frame of the cases of `ENC.NEXT` (R35): the bound, the decoder and everything outside are unchanged; the cursor
moves in case LIT only; the one cell a case can write is the one at the cursor, and only the STUFF rows write it. -/
def Obligations.EncCasesFrame : Prop :=
  ∀ (s t : State) (i : Instr), (encode i).format = .enc → exec i s = .next t →
    t.encEnd = s.encEnd ∧ SameDecoder s t ∧ SameOutside s t ∧
    (∃ b, t.txBytes = s.txBytes ++ [b]) ∧
    ((∃ b, i = .encNextLit b) → t.encCur = s.encCur + 1 ∧ SameCellsBut .tx [] s t) ∧
    (i = .encNextEnd → t.encCur = s.encCur ∧ SameCellsBut .tx [] s t) ∧
    (i = .encNextStuffEsc ∨ i = .encNextStuffFlag ∨ i = .encNextStuffAbort →
      t.encCur = s.encCur ∧ SameCellsBut .tx [s.encCur] s t)

/-- R79: `ENC.NEXT` never returns `ABORT`; it returns `FLAG` exactly at the end of the window; and `ESC` exactly when the
byte at the cursor is reserved, the next operation then returning 0x5D, 0x5E or 0x5F. -/
def Obligations.EncReturnsOnlyWireBytes : Prop :=
  ∀ s t : State, perform .encNext s = .next t →
    ∃ b, t.txBytes = s.txBytes ++ [b] ∧ b ≠ 0x7F#8 ∧
      (b = 0x7E#8 ↔ s.encCur = s.encEnd) ∧
      (b = 0x7D#8 ↔ s.encCur ≠ s.encEnd ∧ (s.memRead .tx s.encCur = some 0x7D#8 ∨
        s.memRead .tx s.encCur = some 0x7E#8 ∨ s.memRead .tx s.encCur = some 0x7F#8)) ∧
      (b = 0x7D#8 → ∃ u v, perform .encNext t = .next u ∧ u.txBytes = t.txBytes ++ [v] ∧
        (v = 0x5D#8 ∨ v = 0x5E#8 ∨ v = 0x5F#8))

/-- R74: a frame loaded and requested again and again comes out as `stuff` of it followed by `FLAG` for ever. The body has
`n + k` bytes, and its end leaves the cursor at the bound and the window with its reserved bytes rewritten. -/
def Obligations.EncoderSendsStuffedFrame : Prop :=
  ∀ (s : State) (a m : Nat) (frame : List Byte), a + frame.length ≤ s.config.txSize →
    (stuff frame).length = frame.length + reservedCount frame ∧
    ∃ t, performAll (.host (.txFrame a frame) ::
        List.replicate (frame.length + reservedCount frame + m) .encNext) s = .next t ∧
      t.txBytes = s.txBytes ++ stuff frame ++ List.replicate m 0x7E#8 ∧
      t.encCur = a + frame.length ∧ t.encEnd = a + frame.length ∧
      holds t .tx a (mutated frame) ∧
      (∀ c, (c < a ∨ a + frame.length ≤ c) → t.memRead .tx c = s.memRead .tx c) ∧
      SameDecoder s t ∧ SameOutside s t

/-- R77: a second pass over a window whose frame has been encoded sends the rewritten bytes as literals, and leaves the
buffer as it is. -/
def Obligations.SecondPassSendsRewrittenBytes : Prop :=
  ∀ (s : State) (a : Nat) (frame : List Byte), a + frame.length ≤ s.config.txSize →
    holds s .tx a (mutated frame) →
    ∃ t, performAll (.host (.encLoad a (a + frame.length)) :: List.replicate frame.length .encNext) s = .next t ∧
      t.txBytes = s.txBytes ++ mutated frame ∧ t.encCur = a + frame.length ∧
      SameCellsBut .tx [] s t ∧ SameDecoder s t ∧ SameOutside s t

/-! ### DEC.ACCEPT -/

/-- R81: the case EXH returns `Abort` for every `val` and changes nothing, and so does every later `DEC.ACCEPT`. -/
def Obligations.DecExhReturnsAbort : Prop :=
  ∀ s : State, s.decCur = s.decEnd →
    (∀ val, exec (.decAcceptExh val) s = .next { s with decResults := s.decResults ++ [.abort] }) ∧
    ∀ w, decFeed w s = .next { s with decResults := s.decResults ++ List.replicate w.length .abort }

/-- R82 with R89: the byte after an `ESC`, for the three rows. Under policy `ABORT` the values 0x7D and 0x7F get `Abort`
with nothing written; every other byte, and every byte under `UNSTUFF`, is stored as `val ^ 0x20`. -/
def Obligations.DecUnescStoresByte : Prop :=
  ∀ (s : State) (val : Byte) (i : Instr), s.WindowsOk → s.decCur ≠ s.decEnd →
    s.memRead .rx s.decCur = some 0x7D#8 →
    i = (if val = 0x7D#8 then .decAcceptUnescEsc else if val = 0x7F#8 then .decAcceptUnescAbort
         else .decAcceptUnesc val) →
    if s.config.policy = .abort ∧ (val = 0x7D#8 ∨ val = 0x7F#8) then
      exec i s = .next { s with decResults := s.decResults ++ [.abort] }
    else ∃ t, exec i s = .next t ∧ DataStored (val ^^^ 0x20#8) s t

/-- R83: a leading flag is discarded: `Pending`, no change. -/
def Obligations.DecSkipIgnoresFlag : Prop :=
  ∀ s : State, s.decCur ≠ s.decEnd → s.memRead .rx s.decCur = some 0x00#8 →
    exec .decAcceptSkip s = .next { s with decResults := s.decResults ++ [.pending] }

/-- R84: an escape opens, from `INIT` and from `READY`: 0x7D is written at the cursor, which stays; the state becomes
`ESC_PENDING` and the result is `Pending`. -/
def Obligations.DecEscinWritesMarker : Prop :=
  ∀ (s : State) (i : Instr) (st : Byte),
    (i, st) ∈ [(Instr.decAcceptEscinInit, 0x00#8), (Instr.decAcceptEscinReady, 0x7E#8)] →
    s.decCur ≠ s.decEnd → s.memRead .rx s.decCur = some st →
    ∃ t, exec i s = .next t ∧ MarkerWritten 0x7D#8 .pending s t ∧ dview t = .escPending

/-- R85: the closing flag: `FrameComplete`, and no architectural state changes, so a further `FLAG` gets it again. -/
def Obligations.DecDoneCompletesFrame : Prop :=
  ∀ s : State, s.decCur ≠ s.decEnd → s.memRead .rx s.decCur = some 0x7E#8 →
    exec .decAcceptDone s = .next { s with decResults := s.decResults ++ [.frameComplete] } ∧
    ∀ k, decFeed (List.replicate k 0x7E#8) s =
      .next { s with decResults := s.decResults ++ List.replicate k .frameComplete }

/-- R86: the sender aborts, in `INIT` and in `READY`: 0x7F is written at the cursor, which stays; `Abort`; and every later
operation is case CORRUPT, with nothing written. -/
def Obligations.DecSabortWritesAbort : Prop :=
  ∀ (s : State) (i : Instr) (st : Byte),
    (i, st) ∈ [(Instr.decAcceptSabortInit, 0x00#8), (Instr.decAcceptSabortReady, 0x7E#8)] →
    s.decCur ≠ s.decEnd → s.memRead .rx s.decCur = some st →
    ∃ t, exec i s = .next t ∧ MarkerWritten 0x7F#8 .abort s t ∧ t.decCur ≠ t.decEnd ∧ dview t = .corrupt ∧
      ∀ w, decFeed w t = .next { t with decResults := t.decResults ++ List.replicate w.length .abort }

/-- R87 with R89: a literal data byte is stored, from `INIT` and from `READY`. -/
def Obligations.DecDataStoresByte : Prop :=
  ∀ (s : State) (i : Instr) (st val : Byte),
    (i, st) ∈ [(Instr.decAcceptDataInit val, 0x00#8), (Instr.decAcceptDataReady val, 0x7E#8)] →
    s.WindowsOk → s.decCur ≠ s.decEnd → s.memRead .rx s.decCur = some st →
    val ≠ 0x7D#8 → val ≠ 0x7E#8 → val ≠ 0x7F#8 →
    ∃ t, exec i s = .next t ∧ DataStored val s t

/-- R88: an illegal state gets `Abort` for every `val`, nothing written, and again for ever. -/
def Obligations.DecCorruptReturnsAbort : Prop :=
  ∀ (s : State) (st : Byte), s.decCur ≠ s.decEnd → s.memRead .rx s.decCur = some st →
    st ≠ 0x00#8 → st ≠ 0x7E#8 → st ≠ 0x7D#8 →
    (∀ val, exec (.decAcceptCorrupt st val) s = .next { s with decResults := s.decResults ++ [.abort] }) ∧
    ∀ w, decFeed w s = .next { s with decResults := s.decResults ++ List.replicate w.length .abort }

/-- The frame of the cases of `DEC.ACCEPT` (R36, R90): the bound, the encoder and everything outside are unchanged, one
result is returned; EXH, SKIP, DONE and CORRUPT change no cell and no register; ESCIN and SABORT can change the cell at the
cursor only; UNESC and DATA that and, unless the cursor reaches the bound, the next one, and move the cursor by at most
one. -/
def Obligations.DecCasesFrame : Prop :=
  ∀ (s t : State) (i : Instr), (encode i).format = .dec → exec i s = .next t →
    t.decEnd = s.decEnd ∧ SameEncoder s t ∧ SameOutside s t ∧
    (∃ r, t.decResults = s.decResults ++ [r]) ∧
    (t.decCur = s.decCur ∨ t.decCur = s.decCur + 1) ∧
    SameCellsBut .rx (if s.decCur + 1 = s.decEnd then [s.decCur] else [s.decCur, s.decCur + 1]) s t ∧
    ((∃ v, i = .decAcceptExh v) ∨ i = .decAcceptSkip ∨ i = .decAcceptDone ∨ (∃ st v, i = .decAcceptCorrupt st v) →
      t.decCur = s.decCur ∧ SameCellsBut .rx [] s t) ∧
    (i = .decAcceptEscinInit ∨ i = .decAcceptEscinReady ∨ i = .decAcceptSabortInit ∨ i = .decAcceptSabortReady →
      t.decCur = s.decCur ∧ SameCellsBut .rx [s.decCur] s t)

/-- R91: the results and next states of the corrected state table, for every state, value and policy. -/
def Obligations.DecStateTable : Prop :=
  ∀ (s : State) (val : Byte), s.WindowsOk →
    ∃ t, perform (.decAccept val) s = .next t ∧
      t.decResults = s.decResults ++
        [(stateTable s.config.policy (decide (s.decCur + 1 = s.decEnd)) val (dview s)).1] ∧
      dview t = (stateTable s.config.policy (decide (s.decCur + 1 = s.decEnd)) val (dview s)).2

/-- R19: `INIT` is entered only by the host: a decoder that is in `INIT` after `DEC.ACCEPT` was in `INIT` before it, and
nothing but the result was put out. -/
def Obligations.DecoderNeverEntersInit : Prop :=
  ∀ (s t : State) (val : Byte), perform (.decAccept val) s = .next t → dview t = .init →
    dview s = .init ∧ t = { s with decResults := s.decResults ++ [.pending] }

/-- R153: `DEC.ACCEPT` returns `Abort` exactly when `abort_cause` is not `none`. -/
def Obligations.AbortExactlyWhenCaused : Prop :=
  ∀ (s : State) (val : Byte), s.WindowsOk →
    ∃ t r, perform (.decAccept val) s = .next t ∧ t.decResults = s.decResults ++ [r] ∧
      (r = .abort ↔ abortCause s val ≠ .none)

/-- R152: what the host reads off the cursor and the cell after an `Abort`, against its cause. -/
def Obligations.HostTellsCausesApart : Prop :=
  ∀ (s t : State) (val : Byte), s.WindowsOk → perform (.decAccept val) s = .next t → abortCause s val ≠ .none →
    (hostDiagnosis t = .bufferExhausted ↔
      abortCause s val = .exhaustedOnEntry ∨ abortCause s val = .exhaustedOnAdvance) ∧
    (hostDiagnosis t = .escReserved ↔ abortCause s val = .escReserved) ∧
    (abortCause s val = .senderAbort → hostDiagnosis t = .senderAbortOrCorrupt) ∧
    (hostDiagnosis t = .bufferCorruption → abortCause s val = .corruption)

/-- R155: after an `Abort` every further operation returns `Abort` and writes nothing; only after the cause of R145 is the
state still `ESC_PENDING`. -/
def Obligations.AbortRepeatsUntilHostActs : Prop :=
  ∀ (s t : State) (val : Byte), s.WindowsOk → perform (.decAccept val) s = .next t → abortCause s val ≠ .none →
    (abortCause s val ≠ .escReserved →
      ∀ w, decFeed w t = .next { t with decResults := t.decResults ++ List.replicate w.length .abort }) ∧
    (abortCause s val = .escReserved → dview t = .escPending ∧ SameCellsBut .rx [] s t)

/-- R93: `INIT` and `READY` differ on `FLAG` only: on any other byte the two lead to the same outcome, and on `FLAG` one
returns `Pending` and the other `FrameComplete`, with nothing else changed. -/
def Obligations.InitAndReadyDifferOnFlagOnly : Prop :=
  ∀ (s : State) (val : Byte), s.decCur ≠ s.decEnd → s.decCur < s.config.rxSize →
    let inInit := s.put .rx s.decCur 0x00#8
    let inReady := s.put .rx s.decCur 0x7E#8
    (val ≠ 0x7E#8 → perform (.decAccept val) inInit = perform (.decAccept val) inReady) ∧
    perform (.decAccept 0x7E#8) inInit = .next (decReturn .pending inInit) ∧
    perform (.decAccept 0x7E#8) inReady = .next (decReturn .frameComplete inReady)

/-! ### Laws of the two units -/

/-- R14 (a), (b), (d): a unit operation leaves its cursor or adds one to it, adds only where the cursor differs from the
bound, never writes a bound, and never passes it. -/
def Obligations.CursorLaws : Prop :=
  ∀ (s t : State) (r : Request), (r = .encNext ∨ ∃ val, r = .decAccept val) → perform r s = .next t →
    (t.encCur = s.encCur ∨ (t.encCur = s.encCur + 1 ∧ s.encCur ≠ s.encEnd)) ∧ t.encEnd = s.encEnd ∧
    (t.decCur = s.decCur ∨ (t.decCur = s.decCur + 1 ∧ s.decCur ≠ s.decEnd)) ∧ t.decEnd = s.decEnd ∧
    (s.WindowsOk → t.WindowsOk)

/-- R43: the two units are independent: in either order one `ENC.NEXT` and one `DEC.ACCEPT` give the same state. -/
def Obligations.UnitsCommute : Prop :=
  ∀ (s : State) (val : Byte), s.WindowsOk →
    ∃ t, performAll [.encNext, .decAccept val] s = .next t ∧ performAll [.decAccept val, .encNext] s = .next t

/-- R43, R162: steps of two instances of the block give the same result in either order. -/
def Obligations.InstancesAreIndependent : Prop :=
  ∀ (blocks b1 b2 : List State) (j k : Nat), j ≠ k →
    stepInstance j blocks = some (.next b1) → stepInstance k blocks = some (.next b2) →
    b1[k]? = blocks[k]? ∧
    ∃ b12, stepInstance k b1 = some (.next b12) ∧ stepInstance j b2 = some (.next b12)

/-- R16: what an operation has returned is stored nowhere the block can read: the outputs recorded so far change nothing of
what an instruction does but what its own outputs are appended to. -/
def Obligations.OutputsAreNeverRead : Prop :=
  ∀ (i : Instr) (s t : State), exec i s = .next t →
    ∃ (tx : List Byte) (dec : List Result) (host : List ReadBack),
      t.txBytes = s.txBytes ++ tx ∧ t.decResults = s.decResults ++ dec ∧ t.readBacks = s.readBacks ++ host ∧
      ∀ tx0 dec0 host0, exec i (s.withOutputs tx0 dec0 host0) =
        .next (t.withOutputs (tx0 ++ tx) (dec0 ++ dec) (host0 ++ host))

/-- R39: every address a unit operation issues is below its end bound, hence below the size of its space. -/
def Obligations.AccessesStayBelowBound : Prop :=
  ∀ (s : State) (val : Byte), s.WindowsOk →
    (∀ x ∈ encAccesses s, x.space = .tx ∧ x.address < s.encEnd ∧ x.address < s.config.txSize) ∧
    (∀ x ∈ decAccesses val s, x.space = .rx ∧ x.address < s.decEnd ∧ x.address < s.config.rxSize)

/-- R35, R36, R90: the listed accesses are all a unit operation does to memory: after it every cell of both spaces reads
the latest listed write to it, or what it held. -/
def Obligations.AccessListsAreComplete : Prop :=
  ∀ (s t : State) (val : Byte) (sp : Space) (a : Nat),
    (perform .encNext s = .next t → t.memRead sp a = readAfter sp a (s.memRead sp a) (encAccesses s)) ∧
    (perform (.decAccept val) s = .next t → t.memRead sp a = readAfter sp a (s.memRead sp a) (decAccesses val s))

/-! ### Frames on the wire -/

/-- R116: `unstuff` undoes `stuff`; a stuffed frame is conforming (R52) and holds no `FLAG` and no `ABORT` (R130), and a
conforming body is the stuffing of what it decodes to. -/
def Obligations.UnstuffUndoesStuff : Prop :=
  (∀ frame : List Byte, unstuff (stuff frame) = frame ∧ conformingItems (stuff frame) = true ∧
    0x7E#8 ∉ stuff frame ∧ 0x7F#8 ∉ stuff frame) ∧
  (∀ body : List Byte, conformingItems body = true → stuff (unstuff body) = body)

/-- R117: a freshly opened decoder fed leading flags, a conforming body and the closing flag completes the frame. The
window is opened in any state, one that an `Abort` left among them. -/
def Obligations.ConformingFrameIsReceived : Prop :=
  ∀ (s : State) (r e j : Nat) (body : List Byte), conformingBody body = true →
    e ≤ s.config.rxSize → r + (unstuff body).length + 1 ≤ e →
    ∃ t, performAll (.host (.rxOpen r e) ::
        (List.replicate j 0x7E#8 ++ body ++ [0x7E#8]).map Request.decAccept) s = .next t ∧
      t.decResults = s.decResults ++ List.replicate (j + body.length) .pending ++ [.frameComplete] ∧
      t.decCur = r + (unstuff body).length ∧ t.decEnd = e ∧
      holds t .rx r (unstuff body) ∧ t.memRead .rx (r + (unstuff body).length) = some 0x7E#8 ∧
      (∀ c, (c < r ∨ r + (unstuff body).length < c) → t.memRead .rx c = s.memRead .rx c) ∧
      SameEncoder s t ∧ SameOutside s t

/-- R122: the round trip: a frame of `n >= 1` bytes sent over the loop of R122 into a window of at least `n + 1` cells is
received whole, after exactly `n + k + 1` rounds. -/
def Obligations.RoundTripIdentity : Prop :=
  ∀ (s : State) (a r e : Nat) (frame : List Byte), 1 ≤ frame.length → a + frame.length ≤ s.config.txSize →
    e ≤ s.config.rxSize → r + frame.length + 1 ≤ e →
    ∃ s0 t, performAll [.host (.txFrame a frame), .host (.rxOpen r e)] s = .next s0 ∧
      (∀ fuel, frame.length + reservedCount frame + 1 ≤ fuel →
        loopback fuel s0 = .next (t, frame.length + reservedCount frame + 1)) ∧
      t.decResults.getLast? = some .frameComplete ∧ holds t .rx r frame ∧ t.decCur = r + frame.length ∧
      t.encCur = a + frame.length ∧ t.encEnd = a + frame.length ∧ holds t .tx a (mutated frame)

/-- R123: a freshly opened decoder absorbs any number of flags and is left as it was. -/
def Obligations.FlagsAreAbsorbed : Prop :=
  ∀ (s : State) (j : Nat), dview s = .init →
    decFeed (List.replicate j 0x7E#8) s = .next { s with decResults := s.decResults ++ List.replicate j .pending }

/-- R124: an abort on the wire: outside an escape it is written at the cursor and every later byte gets `Abort` with nothing
written; inside one it stores 0x5F under `UNSTUFF`, and gets `Abort` with nothing written under policy `ABORT`. -/
def Obligations.AbortPropagates : Prop :=
  ∀ s : State, s.WindowsOk →
    (dview s = .init ∨ dview s = .ready →
      ∃ t, perform (.decAccept 0x7F#8) s = .next t ∧ MarkerWritten 0x7F#8 .abort s t ∧
        ∀ w, decFeed w t = .next { t with decResults := t.decResults ++ List.replicate w.length .abort }) ∧
    (dview s = .escPending → s.config.policy = .unstuff →
      ∃ t, perform (.decAccept 0x7F#8) s = .next t ∧ DataStored 0x5F#8 s t) ∧
    (dview s = .escPending → s.config.policy = .abort →
      perform (.decAccept 0x7F#8) s = .next { s with decResults := s.decResults ++ [.abort] })

/-- R125: a frame of one reserved byte is sent as `ESC`, `b ^ 0x20` and the closing flag; and a decoder in `INIT` or `READY`
with at least two cells left stores `b` from those two bytes and is in `READY`. -/
def Obligations.EscapeCompleteness : Prop :=
  ∀ (s : State) (b : Byte), b = 0x7D#8 ∨ b = 0x7E#8 ∨ b = 0x7F#8 →
    (∀ a, a < s.config.txSize →
      ∃ t, performAll [.host (.txFrame a [b]), .encNext, .encNext, .encNext] s = .next t ∧
        t.txBytes = s.txBytes ++ [0x7D#8, b ^^^ 0x20#8, 0x7E#8]) ∧
    (s.WindowsOk → dview s = .init ∨ dview s = .ready → s.decCur + 2 ≤ s.decEnd →
      ∃ t, decFeed [0x7D#8, b ^^^ 0x20#8] s = .next t ∧ t.memRead .rx s.decCur = some b ∧
        t.decCur = s.decCur + 1 ∧ dview t = .ready ∧ t.decResults = s.decResults ++ [.pending, .pending])

/-- R126: a body that decodes to at least as many bytes as the window has cells: the byte that fills the last cell gets
`Abort` with the cursor at the bound, and so does every later byte; the first `m` raw bytes are in the window. -/
def Obligations.ExhaustionIsDetected : Prop :=
  ∀ (s : State) (r e : Nat) (frame w : List Byte), r < e → e ≤ s.config.rxSize → e - r ≤ frame.length →
    ∃ t, performAll (.host (.rxOpen r e) :: (stuff frame ++ w).map Request.decAccept) s = .next t ∧
      t.decResults = s.decResults ++
        List.replicate ((stuff (frame.take (e - r))).length - 1) .pending ++
        List.replicate ((stuff frame ++ w).length - ((stuff (frame.take (e - r))).length - 1)) .abort ∧
      t.decCur = e ∧ t.decEnd = e ∧ holds t .rx r (frame.take (e - r)) ∧
      (∀ c, (c < r ∨ e ≤ c) → t.memRead .rx c = s.memRead .rx c)

/-- R188: the receive loop is bounded by the window: fed bytes of which the first is not a flag absorbed in `INIT`, it ends
at the latest on the `max(1, 2 * m)`-th, `m` being the cells left, with a result that is not `Pending`. -/
def Obligations.ReceiveLoopIsBounded : Prop :=
  ∀ (s : State) (w : List Byte), s.WindowsOk → (dview s = .init → w.head? ≠ some 0x7E#8) →
    max 1 (2 * (s.decEnd - s.decCur)) ≤ w.length →
    ∃ t rest, receive w s = .next (t, rest) ∧
      w.length - rest.length ≤ max 1 (2 * (s.decEnd - s.decCur)) ∧
      (t.decResults.getLast? = some .frameComplete ∨ t.decResults.getLast? = some .abort)

/-! ### Host operations and RESET -/

/-- R100: `ENC.LOAD s, e` sets the two registers, or is refused outside `s <= e <= TX_SIZE`. -/
def Obligations.EncLoadSetsWindow : Prop :=
  ∀ (st : State) (s e : Nat),
    (s ≤ e ∧ e ≤ st.config.txSize → exec (.encLoad s e) st = .next { st with encCur := s, encEnd := e }) ∧
    (¬ (s ≤ e ∧ e ≤ st.config.txSize) → exec (.encLoad s e) st = .refused .loadOutOfRange)

/-- R101: `DEC.LOAD s, e` sets the two registers and does not seed, or is refused outside `s <= e <= RX_SIZE`. -/
def Obligations.DecLoadSetsWindow : Prop :=
  ∀ (st : State) (s e : Nat),
    (s ≤ e ∧ e ≤ st.config.rxSize → exec (.decLoad s e) st = .next { st with decCur := s, decEnd := e }) ∧
    (¬ (s ≤ e ∧ e ≤ st.config.rxSize) → exec (.decLoad s e) st = .refused .loadOutOfRange)

/-- R102: `TX.WRITE a, v` stores the byte in its cell and changes nothing else; outside the buffer it is refused. -/
def Obligations.TxWriteStoresByte : Prop :=
  ∀ (st : State) (a : Nat) (v : Byte),
    (a < st.config.txSize → ∃ t, exec (.txWrite a v) st = .next t ∧ t.memRead .tx a = some v ∧
      SameCellsBut .tx [a] st t ∧ t.encCur = st.encCur ∧ t.encEnd = st.encEnd ∧ t.txBytes = st.txBytes ∧
      SameDecoder st t ∧ SameOutside st t) ∧
    (st.config.txSize ≤ a → exec (.txWrite a v) st = .refused .addressOutOfRange)

/-- R103: `TX.READ a` returns the cell and changes nothing; a cell read right after it was written gives the byte
written; outside the buffer it is refused. -/
def Obligations.TxReadReturnsCell : Prop :=
  ∀ (st : State) (a : Nat),
    (a < st.config.txSize → ∃ b, st.memRead .tx a = some b ∧
      exec (.txRead a) st = .next { st with readBacks := st.readBacks ++ [.cell b] }) ∧
    (∀ v, a < st.config.txSize → ∃ t, performAll [.host (.txWrite a v), .host (.txRead a)] st = .next t ∧
      t.readBacks = st.readBacks ++ [.cell v]) ∧
    (st.config.txSize ≤ a → exec (.txRead a) st = .refused .addressOutOfRange)

/-- R104: `RX.WRITE a, v` stores the byte in its cell and changes nothing else; outside the buffer it is refused. -/
def Obligations.RxWriteStoresByte : Prop :=
  ∀ (st : State) (a : Nat) (v : Byte),
    (a < st.config.rxSize → ∃ t, exec (.rxWrite a v) st = .next t ∧ t.memRead .rx a = some v ∧
      SameCellsBut .rx [a] st t ∧ t.decCur = st.decCur ∧ t.decEnd = st.decEnd ∧ t.decResults = st.decResults ∧
      SameEncoder st t ∧ SameOutside st t) ∧
    (st.config.rxSize ≤ a → exec (.rxWrite a v) st = .refused .addressOutOfRange)

/-- R105: `RX.READ a` returns the cell and changes nothing; a cell read right after it was written gives the byte
written; outside the buffer it is refused. -/
def Obligations.RxReadReturnsCell : Prop :=
  ∀ (st : State) (a : Nat),
    (a < st.config.rxSize → ∃ b, st.memRead .rx a = some b ∧
      exec (.rxRead a) st = .next { st with readBacks := st.readBacks ++ [.cell b] }) ∧
    (∀ v, a < st.config.rxSize → ∃ t, performAll [.host (.rxWrite a v), .host (.rxRead a)] st = .next t ∧
      t.readBacks = st.readBacks ++ [.cell v]) ∧
    (st.config.rxSize ≤ a → exec (.rxRead a) st = .refused .addressOutOfRange)

/-- R108: `ENC.CUR?` and `DEC.CUR?` return the cursors and change nothing; the bounds read back as loaded, through a
function that is the model's choice (log entry 15). -/
def Obligations.CursorsReadBack : Prop :=
  ∀ st : State,
    exec .encCur st = .next { st with readBacks := st.readBacks ++ [.cursor st.encCur] } ∧
    exec .decCur st = .next { st with readBacks := st.readBacks ++ [.cursor st.decCur] } ∧
    readBounds st = (st.encEnd, st.decEnd)

/-- R106: `DEC.SEED` writes 0x00 into the cell at the cursor, which puts the decoder in `INIT`; with no cell there it is
refused. -/
def Obligations.DecSeedEntersInit : Prop :=
  ∀ st : State,
    (st.WindowsOk → st.decCur ≠ st.decEnd → ∃ t, exec .decSeed st = .next t ∧
      t.memRead .rx st.decCur = some 0x00#8 ∧ dview t = .init ∧ SameCellsBut .rx [st.decCur] st t ∧
      t.decCur = st.decCur ∧ t.decEnd = st.decEnd ∧ t.decResults = st.decResults ∧
      SameEncoder st t ∧ SameOutside st t) ∧
    (st.decCur = st.decEnd → exec .decSeed st = .refused .noCellToSeed)

/-- R107: `TX.FRAME s, bytes` writes the bytes from `s` on and loads the window over them; a frame that does not fit is
refused. -/
def Obligations.TxFrameWritesAndLoads : Prop :=
  ∀ (st : State) (s : Nat) (bytes : List Byte),
    (s + bytes.length ≤ st.config.txSize → ∃ t, exec (.txFrame s bytes) st = .next t ∧
      holds t .tx s bytes ∧ t.encCur = s ∧ t.encEnd = s + bytes.length ∧
      (∀ a, (a < s ∨ s + bytes.length ≤ a) → t.memRead .tx a = st.memRead .tx a) ∧
      t.txBytes = st.txBytes ∧ SameDecoder st t ∧ SameOutside st t) ∧
    (st.config.txSize < s + bytes.length → ∃ r, exec (.txFrame s bytes) st = .refused r)

/-- R109: `RX.OPEN s, e` loads the window and seeds its first cell; it needs `s < e <= RX_SIZE`, and is refused
otherwise. -/
def Obligations.RxOpenLoadsAndSeeds : Prop :=
  ∀ (st : State) (s e : Nat),
    (s < e ∧ e ≤ st.config.rxSize → ∃ t, exec (.rxOpen s e) st = .next t ∧ t.decCur = s ∧ t.decEnd = e ∧
      t.memRead .rx s = some 0x00#8 ∧ dview t = .init ∧ SameCellsBut .rx [s] st t ∧
      t.decResults = st.decResults ∧ SameEncoder st t ∧ SameOutside st t) ∧
    (¬ (s < e ∧ e ≤ st.config.rxSize) → ∃ r, exec (.rxOpen s e) st = .refused r)

/-- R170: `RESET` sets the four registers to zero and leaves in every cell the unspecified byte of that reset, and in no
cell anything written before. The free value is the model's form of that byte (log entry 5), and that the model's own
fields stay, but for the number of resets, is its reading of R170 (log entry 14). -/
def Obligations.ResetEventClearsBlock : Prop :=
  ∀ st : State, ∃ t, exec .reset st = .next t ∧
    t.encCur = 0 ∧ t.encEnd = 0 ∧ t.decCur = 0 ∧ t.decEnd = 0 ∧
    (∀ a, a < st.config.txSize → t.memRead .tx a = some (Config.resetCell .tx (st.resets + 1) a)) ∧
    (∀ a, a < st.config.rxSize → t.memRead .rx a = some (Config.resetCell .rx (st.resets + 1) a)) ∧
    t.config = st.config ∧ t.requests = st.requests ∧ t.txBytes = st.txBytes ∧
    t.decResults = st.decResults ∧ t.readBacks = st.readBacks

/-- The frame of the host operations (R100 to R109) and of `RESET` (R170): none touches the parameters, the waiting requests or the units'
outputs; those on the transmit side leave the decoder alone, those on the receive side the encoder; a load leaves every
cell, a write every cell but its own, a read and a read-back everything but what they return. That `RESET` leaves
the parameters, the waiting requests and the recorded outputs is the model's reading of R170 (log entry 14). -/
def Obligations.HostOperationsFrame : Prop :=
  ∀ (s t : State) (i : Instr), (encode i).format = .host → exec i s = .next t →
    t.config = s.config ∧ t.requests = s.requests ∧ t.txBytes = s.txBytes ∧ t.decResults = s.decResults ∧
    (i ≠ .reset → t.resets = s.resets) ∧
    ((∃ a e, i = .encLoad a e) → SameDecoder s t ∧ SameOutside s t ∧ SameCellsBut .tx [] s t) ∧
    ((∃ a e, i = .decLoad a e) → SameEncoder s t ∧ SameOutside s t ∧ SameCellsBut .rx [] s t) ∧
    (∀ a v, i = .txWrite a v → SameDecoder s t ∧ SameOutside s t ∧ SameCellsBut .tx [a] s t ∧
      t.encCur = s.encCur ∧ t.encEnd = s.encEnd) ∧
    (∀ a v, i = .rxWrite a v → SameEncoder s t ∧ SameOutside s t ∧ SameCellsBut .rx [a] s t ∧
      t.decCur = s.decCur ∧ t.decEnd = s.decEnd) ∧
    ((∃ a, i = .txRead a) ∨ (∃ a, i = .rxRead a) ∨ i = .encCur ∨ i = .decCur →
      SameEncoder s t ∧ SameDecoder s t) ∧
    (i = .decSeed → SameEncoder s t ∧ SameOutside s t ∧ SameCellsBut .rx [s.decCur] s t ∧
      t.decCur = s.decCur ∧ t.decEnd = s.decEnd) ∧
    (∀ a bytes, i = .txFrame a bytes → SameDecoder s t ∧ SameOutside s t ∧
      ∀ c, (c < a ∨ a + bytes.length ≤ c) → t.memRead .tx c = s.memRead .tx c) ∧
    (∀ a e, i = .rxOpen a e → SameEncoder s t ∧ SameOutside s t ∧ SameCellsBut .rx [a] s t)
end

