-- ==== Sys2Proof/Laws/Alphabet.lean ====
section
/-! SUPPORT. The byte constants as numerals, and the classification of bytes. -/

namespace Sys2Proof

@[simp] theorem ESC_eq : ESC = 0x7D#8 := (rfl)
@[simp] theorem FLAG_eq : FLAG = 0x7E#8 := (rfl)
@[simp] theorem ABORT_eq : ABORT = 0x7F#8 := (rfl)
@[simp] theorem XMASK_eq : XMASK = 0x20#8 := (rfl)
@[simp] theorem INIT_eq : INIT = 0x00#8 := (rfl)

/-- R51: the reserved bytes. -/
theorem reserved_iff (b : Byte) : reserved b = true ↔ b = 0x7D#8 ∨ b = 0x7E#8 ∨ b = 0x7F#8 := by
  unfold reserved classOf
  split
  · simp_all
  · split
    · simp_all
    · split <;> simp_all

/-- R51: the data bytes. -/
theorem not_reserved_iff (b : Byte) : reserved b = false ↔ b ≠ 0x7D#8 ∧ b ≠ 0x7E#8 ∧ b ≠ 0x7F#8 := by
  rw [← Bool.not_eq_true, reserved_iff]
  tauto

/-- R18: the legal states. -/
theorem legalState_iff (b : Byte) : legalState b = true ↔ b = 0x00#8 ∨ b = 0x7E#8 ∨ b = 0x7D#8 := by
  simp [legalState, or_assoc]

/-- R59 (c): the transform of a reserved byte is a data byte. -/
theorem reserved_escapeX {b : Byte} (h : reserved b = true) : reserved (escapeX b) = false := by
  rcases (reserved_iff b).1 h with rfl | rfl | rfl <;> decide

end Sys2Proof
end

