-- ==== Sys2Proof/Laws/State.lean ====
section
/-! SUPPORT. One lemma per field per update of State, true by rfl (written `(rfl)`, so that simp also rewrites the instance of a test on the field), so that no proof unfolds a record update. -/

namespace Sys2Proof.Machine

variable (s : State)


/-! ### setEncWindow -/

@[simp] theorem setEncWindow_config (a e : Nat) : (s.setEncWindow a e).config = s.config := (rfl)
@[simp] theorem setEncWindow_encCur (a e : Nat) : (s.setEncWindow a e).encCur = a := (rfl)
@[simp] theorem setEncWindow_encEnd (a e : Nat) : (s.setEncWindow a e).encEnd = e := (rfl)
@[simp] theorem setEncWindow_txBuf (a e : Nat) : (s.setEncWindow a e).txBuf = s.txBuf := (rfl)
@[simp] theorem setEncWindow_decCur (a e : Nat) : (s.setEncWindow a e).decCur = s.decCur := (rfl)
@[simp] theorem setEncWindow_decEnd (a e : Nat) : (s.setEncWindow a e).decEnd = s.decEnd := (rfl)
@[simp] theorem setEncWindow_rxBuf (a e : Nat) : (s.setEncWindow a e).rxBuf = s.rxBuf := (rfl)
@[simp] theorem setEncWindow_resets (a e : Nat) : (s.setEncWindow a e).resets = s.resets := (rfl)
@[simp] theorem setEncWindow_requests (a e : Nat) : (s.setEncWindow a e).requests = s.requests := (rfl)
@[simp] theorem setEncWindow_txBytes (a e : Nat) : (s.setEncWindow a e).txBytes = s.txBytes := (rfl)
@[simp] theorem setEncWindow_decResults (a e : Nat) : (s.setEncWindow a e).decResults = s.decResults := (rfl)
@[simp] theorem setEncWindow_readBacks (a e : Nat) : (s.setEncWindow a e).readBacks = s.readBacks := (rfl)

/-! ### setDecWindow -/

@[simp] theorem setDecWindow_config (a e : Nat) : (s.setDecWindow a e).config = s.config := (rfl)
@[simp] theorem setDecWindow_encCur (a e : Nat) : (s.setDecWindow a e).encCur = s.encCur := (rfl)
@[simp] theorem setDecWindow_encEnd (a e : Nat) : (s.setDecWindow a e).encEnd = s.encEnd := (rfl)
@[simp] theorem setDecWindow_txBuf (a e : Nat) : (s.setDecWindow a e).txBuf = s.txBuf := (rfl)
@[simp] theorem setDecWindow_decCur (a e : Nat) : (s.setDecWindow a e).decCur = a := (rfl)
@[simp] theorem setDecWindow_decEnd (a e : Nat) : (s.setDecWindow a e).decEnd = e := (rfl)
@[simp] theorem setDecWindow_rxBuf (a e : Nat) : (s.setDecWindow a e).rxBuf = s.rxBuf := (rfl)
@[simp] theorem setDecWindow_resets (a e : Nat) : (s.setDecWindow a e).resets = s.resets := (rfl)
@[simp] theorem setDecWindow_requests (a e : Nat) : (s.setDecWindow a e).requests = s.requests := (rfl)
@[simp] theorem setDecWindow_txBytes (a e : Nat) : (s.setDecWindow a e).txBytes = s.txBytes := (rfl)
@[simp] theorem setDecWindow_decResults (a e : Nat) : (s.setDecWindow a e).decResults = s.decResults := (rfl)
@[simp] theorem setDecWindow_readBacks (a e : Nat) : (s.setDecWindow a e).readBacks = s.readBacks := (rfl)

/-! ### advanceEnc -/

@[simp] theorem advanceEnc_config : (s.advanceEnc).config = s.config := (rfl)
@[simp] theorem advanceEnc_encCur : (s.advanceEnc).encCur = s.encCur + 1 := (rfl)
@[simp] theorem advanceEnc_encEnd : (s.advanceEnc).encEnd = s.encEnd := (rfl)
@[simp] theorem advanceEnc_txBuf : (s.advanceEnc).txBuf = s.txBuf := (rfl)
@[simp] theorem advanceEnc_decCur : (s.advanceEnc).decCur = s.decCur := (rfl)
@[simp] theorem advanceEnc_decEnd : (s.advanceEnc).decEnd = s.decEnd := (rfl)
@[simp] theorem advanceEnc_rxBuf : (s.advanceEnc).rxBuf = s.rxBuf := (rfl)
@[simp] theorem advanceEnc_resets : (s.advanceEnc).resets = s.resets := (rfl)
@[simp] theorem advanceEnc_requests : (s.advanceEnc).requests = s.requests := (rfl)
@[simp] theorem advanceEnc_txBytes : (s.advanceEnc).txBytes = s.txBytes := (rfl)
@[simp] theorem advanceEnc_decResults : (s.advanceEnc).decResults = s.decResults := (rfl)
@[simp] theorem advanceEnc_readBacks : (s.advanceEnc).readBacks = s.readBacks := (rfl)

/-! ### advanceDec -/

@[simp] theorem advanceDec_config : (s.advanceDec).config = s.config := (rfl)
@[simp] theorem advanceDec_encCur : (s.advanceDec).encCur = s.encCur := (rfl)
@[simp] theorem advanceDec_encEnd : (s.advanceDec).encEnd = s.encEnd := (rfl)
@[simp] theorem advanceDec_txBuf : (s.advanceDec).txBuf = s.txBuf := (rfl)
@[simp] theorem advanceDec_decCur : (s.advanceDec).decCur = s.decCur + 1 := (rfl)
@[simp] theorem advanceDec_decEnd : (s.advanceDec).decEnd = s.decEnd := (rfl)
@[simp] theorem advanceDec_rxBuf : (s.advanceDec).rxBuf = s.rxBuf := (rfl)
@[simp] theorem advanceDec_resets : (s.advanceDec).resets = s.resets := (rfl)
@[simp] theorem advanceDec_requests : (s.advanceDec).requests = s.requests := (rfl)
@[simp] theorem advanceDec_txBytes : (s.advanceDec).txBytes = s.txBytes := (rfl)
@[simp] theorem advanceDec_decResults : (s.advanceDec).decResults = s.decResults := (rfl)
@[simp] theorem advanceDec_readBacks : (s.advanceDec).readBacks = s.readBacks := (rfl)

/-! ### encReturn -/

@[simp] theorem encReturn_config (b : Byte) : (encReturn b s).config = s.config := (rfl)
@[simp] theorem encReturn_encCur (b : Byte) : (encReturn b s).encCur = s.encCur := (rfl)
@[simp] theorem encReturn_encEnd (b : Byte) : (encReturn b s).encEnd = s.encEnd := (rfl)
@[simp] theorem encReturn_txBuf (b : Byte) : (encReturn b s).txBuf = s.txBuf := (rfl)
@[simp] theorem encReturn_decCur (b : Byte) : (encReturn b s).decCur = s.decCur := (rfl)
@[simp] theorem encReturn_decEnd (b : Byte) : (encReturn b s).decEnd = s.decEnd := (rfl)
@[simp] theorem encReturn_rxBuf (b : Byte) : (encReturn b s).rxBuf = s.rxBuf := (rfl)
@[simp] theorem encReturn_resets (b : Byte) : (encReturn b s).resets = s.resets := (rfl)
@[simp] theorem encReturn_requests (b : Byte) : (encReturn b s).requests = s.requests := (rfl)
@[simp] theorem encReturn_txBytes (b : Byte) : (encReturn b s).txBytes = s.txBytes ++ [b] := (rfl)
@[simp] theorem encReturn_decResults (b : Byte) : (encReturn b s).decResults = s.decResults := (rfl)
@[simp] theorem encReturn_readBacks (b : Byte) : (encReturn b s).readBacks = s.readBacks := (rfl)

/-! ### decReturn -/

@[simp] theorem decReturn_config (r : Result) : (decReturn r s).config = s.config := (rfl)
@[simp] theorem decReturn_encCur (r : Result) : (decReturn r s).encCur = s.encCur := (rfl)
@[simp] theorem decReturn_encEnd (r : Result) : (decReturn r s).encEnd = s.encEnd := (rfl)
@[simp] theorem decReturn_txBuf (r : Result) : (decReturn r s).txBuf = s.txBuf := (rfl)
@[simp] theorem decReturn_decCur (r : Result) : (decReturn r s).decCur = s.decCur := (rfl)
@[simp] theorem decReturn_decEnd (r : Result) : (decReturn r s).decEnd = s.decEnd := (rfl)
@[simp] theorem decReturn_rxBuf (r : Result) : (decReturn r s).rxBuf = s.rxBuf := (rfl)
@[simp] theorem decReturn_resets (r : Result) : (decReturn r s).resets = s.resets := (rfl)
@[simp] theorem decReturn_requests (r : Result) : (decReturn r s).requests = s.requests := (rfl)
@[simp] theorem decReturn_txBytes (r : Result) : (decReturn r s).txBytes = s.txBytes := (rfl)
@[simp] theorem decReturn_decResults (r : Result) : (decReturn r s).decResults = s.decResults ++ [r] := (rfl)
@[simp] theorem decReturn_readBacks (r : Result) : (decReturn r s).readBacks = s.readBacks := (rfl)

/-! ### hostReturn -/

@[simp] theorem hostReturn_config (v : ReadBack) : (hostReturn v s).config = s.config := (rfl)
@[simp] theorem hostReturn_encCur (v : ReadBack) : (hostReturn v s).encCur = s.encCur := (rfl)
@[simp] theorem hostReturn_encEnd (v : ReadBack) : (hostReturn v s).encEnd = s.encEnd := (rfl)
@[simp] theorem hostReturn_txBuf (v : ReadBack) : (hostReturn v s).txBuf = s.txBuf := (rfl)
@[simp] theorem hostReturn_decCur (v : ReadBack) : (hostReturn v s).decCur = s.decCur := (rfl)
@[simp] theorem hostReturn_decEnd (v : ReadBack) : (hostReturn v s).decEnd = s.decEnd := (rfl)
@[simp] theorem hostReturn_rxBuf (v : ReadBack) : (hostReturn v s).rxBuf = s.rxBuf := (rfl)
@[simp] theorem hostReturn_resets (v : ReadBack) : (hostReturn v s).resets = s.resets := (rfl)
@[simp] theorem hostReturn_requests (v : ReadBack) : (hostReturn v s).requests = s.requests := (rfl)
@[simp] theorem hostReturn_txBytes (v : ReadBack) : (hostReturn v s).txBytes = s.txBytes := (rfl)
@[simp] theorem hostReturn_decResults (v : ReadBack) : (hostReturn v s).decResults = s.decResults := (rfl)
@[simp] theorem hostReturn_readBacks (v : ReadBack) : (hostReturn v s).readBacks = s.readBacks ++ [v] := (rfl)

/-! ### withOutputs -/

@[simp] theorem withOutputs_config (tx : List Byte) (dec : List Result) (host : List ReadBack) : (s.withOutputs tx dec host).config = s.config := (rfl)
@[simp] theorem withOutputs_encCur (tx : List Byte) (dec : List Result) (host : List ReadBack) : (s.withOutputs tx dec host).encCur = s.encCur := (rfl)
@[simp] theorem withOutputs_encEnd (tx : List Byte) (dec : List Result) (host : List ReadBack) : (s.withOutputs tx dec host).encEnd = s.encEnd := (rfl)
@[simp] theorem withOutputs_txBuf (tx : List Byte) (dec : List Result) (host : List ReadBack) : (s.withOutputs tx dec host).txBuf = s.txBuf := (rfl)
@[simp] theorem withOutputs_decCur (tx : List Byte) (dec : List Result) (host : List ReadBack) : (s.withOutputs tx dec host).decCur = s.decCur := (rfl)
@[simp] theorem withOutputs_decEnd (tx : List Byte) (dec : List Result) (host : List ReadBack) : (s.withOutputs tx dec host).decEnd = s.decEnd := (rfl)
@[simp] theorem withOutputs_rxBuf (tx : List Byte) (dec : List Result) (host : List ReadBack) : (s.withOutputs tx dec host).rxBuf = s.rxBuf := (rfl)
@[simp] theorem withOutputs_resets (tx : List Byte) (dec : List Result) (host : List ReadBack) : (s.withOutputs tx dec host).resets = s.resets := (rfl)
@[simp] theorem withOutputs_requests (tx : List Byte) (dec : List Result) (host : List ReadBack) : (s.withOutputs tx dec host).requests = s.requests := (rfl)
@[simp] theorem withOutputs_txBytes (tx : List Byte) (dec : List Result) (host : List ReadBack) : (s.withOutputs tx dec host).txBytes = tx := (rfl)
@[simp] theorem withOutputs_decResults (tx : List Byte) (dec : List Result) (host : List ReadBack) : (s.withOutputs tx dec host).decResults = dec := (rfl)
@[simp] theorem withOutputs_readBacks (tx : List Byte) (dec : List Result) (host : List ReadBack) : (s.withOutputs tx dec host).readBacks = host := (rfl)

/-! ### setMem -/

@[simp] theorem setMem_config (sp : Space) (m : Memory) : (s.setMem sp m).config = s.config := by
  cases sp <;> rfl
@[simp] theorem setMem_encCur (sp : Space) (m : Memory) : (s.setMem sp m).encCur = s.encCur := by
  cases sp <;> rfl
@[simp] theorem setMem_encEnd (sp : Space) (m : Memory) : (s.setMem sp m).encEnd = s.encEnd := by
  cases sp <;> rfl
@[simp] theorem setMem_tx_txBuf (m : Memory) : (s.setMem .tx m).txBuf = m := (rfl)
@[simp] theorem setMem_rx_txBuf (m : Memory) : (s.setMem .rx m).txBuf = s.txBuf := (rfl)
@[simp] theorem setMem_decCur (sp : Space) (m : Memory) : (s.setMem sp m).decCur = s.decCur := by
  cases sp <;> rfl
@[simp] theorem setMem_decEnd (sp : Space) (m : Memory) : (s.setMem sp m).decEnd = s.decEnd := by
  cases sp <;> rfl
@[simp] theorem setMem_tx_rxBuf (m : Memory) : (s.setMem .tx m).rxBuf = s.rxBuf := (rfl)
@[simp] theorem setMem_rx_rxBuf (m : Memory) : (s.setMem .rx m).rxBuf = m := (rfl)
@[simp] theorem setMem_resets (sp : Space) (m : Memory) : (s.setMem sp m).resets = s.resets := by
  cases sp <;> rfl
@[simp] theorem setMem_requests (sp : Space) (m : Memory) : (s.setMem sp m).requests = s.requests := by
  cases sp <;> rfl
@[simp] theorem setMem_txBytes (sp : Space) (m : Memory) : (s.setMem sp m).txBytes = s.txBytes := by
  cases sp <;> rfl
@[simp] theorem setMem_decResults (sp : Space) (m : Memory) : (s.setMem sp m).decResults = s.decResults := by
  cases sp <;> rfl
@[simp] theorem setMem_readBacks (sp : Space) (m : Memory) : (s.setMem sp m).readBacks = s.readBacks := by
  cases sp <;> rfl

/-! ### put -/

@[simp] theorem put_config (sp : Space) (a : Nat) (v : Byte) : (s.put sp a v).config = s.config := by
  cases sp <;> rfl
@[simp] theorem put_encCur (sp : Space) (a : Nat) (v : Byte) : (s.put sp a v).encCur = s.encCur := by
  cases sp <;> rfl
@[simp] theorem put_encEnd (sp : Space) (a : Nat) (v : Byte) : (s.put sp a v).encEnd = s.encEnd := by
  cases sp <;> rfl
@[simp] theorem put_decCur (sp : Space) (a : Nat) (v : Byte) : (s.put sp a v).decCur = s.decCur := by
  cases sp <;> rfl
@[simp] theorem put_decEnd (sp : Space) (a : Nat) (v : Byte) : (s.put sp a v).decEnd = s.decEnd := by
  cases sp <;> rfl
@[simp] theorem put_resets (sp : Space) (a : Nat) (v : Byte) : (s.put sp a v).resets = s.resets := by
  cases sp <;> rfl
@[simp] theorem put_requests (sp : Space) (a : Nat) (v : Byte) : (s.put sp a v).requests = s.requests := by
  cases sp <;> rfl
@[simp] theorem put_txBytes (sp : Space) (a : Nat) (v : Byte) : (s.put sp a v).txBytes = s.txBytes := by
  cases sp <;> rfl
@[simp] theorem put_decResults (sp : Space) (a : Nat) (v : Byte) : (s.put sp a v).decResults = s.decResults := by
  cases sp <;> rfl
@[simp] theorem put_readBacks (sp : Space) (a : Nat) (v : Byte) : (s.put sp a v).readBacks = s.readBacks := by
  cases sp <;> rfl
@[simp] theorem put_tx_txBuf (a : Nat) (v : Byte) : (s.put .tx a v).txBuf = s.txBuf.insert a v := (rfl)
@[simp] theorem put_rx_txBuf (a : Nat) (v : Byte) : (s.put .rx a v).txBuf = s.txBuf := (rfl)
@[simp] theorem put_tx_rxBuf (a : Nat) (v : Byte) : (s.put .tx a v).rxBuf = s.rxBuf := (rfl)
@[simp] theorem put_rx_rxBuf (a : Nat) (v : Byte) : (s.put .rx a v).rxBuf = s.rxBuf.insert a v := (rfl)

/-! ### reset -/

@[simp] theorem resetWith_config (c : Config) : (State.resetWith c).config = c := (rfl)
@[simp] theorem resetWith_encCur (c : Config) : (State.resetWith c).encCur = 0 := (rfl)
@[simp] theorem resetWith_encEnd (c : Config) : (State.resetWith c).encEnd = 0 := (rfl)
@[simp] theorem resetWith_txBuf (c : Config) : (State.resetWith c).txBuf = [] := (rfl)
@[simp] theorem resetWith_decCur (c : Config) : (State.resetWith c).decCur = 0 := (rfl)
@[simp] theorem resetWith_decEnd (c : Config) : (State.resetWith c).decEnd = 0 := (rfl)
@[simp] theorem resetWith_rxBuf (c : Config) : (State.resetWith c).rxBuf = [] := (rfl)
@[simp] theorem resetWith_resets (c : Config) : (State.resetWith c).resets = 0 := (rfl)
@[simp] theorem resetWith_requests (c : Config) : (State.resetWith c).requests = [] := (rfl)
@[simp] theorem resetWith_txBytes (c : Config) : (State.resetWith c).txBytes = [] := (rfl)
@[simp] theorem resetWith_decResults (c : Config) : (State.resetWith c).decResults = [] := (rfl)
@[simp] theorem resetWith_readBacks (c : Config) : (State.resetWith c).readBacks = [] := (rfl)

/-! ### sizes and spaces: only the buffers and the parameters matter -/

@[simp] theorem size_tx : s.size .tx = s.config.txSize := (rfl)
@[simp] theorem size_rx : s.size .rx = s.config.rxSize := (rfl)
@[simp] theorem mem_tx : s.mem .tx = s.txBuf := (rfl)
@[simp] theorem mem_rx : s.mem .rx = s.rxBuf := (rfl)

end Sys2Proof.Machine
end

