-- ==== Sys2Proof/Laws/Memory.lean ====
section
/-! SUPPORT. The laws of one buffer: read after write, a write leaves other cells alone, and the canonical form is
kept. -/

namespace Sys2Proof.Machine

@[simp] theorem lookup_insert_self (m : Memory) (a : Nat) (v : Byte) : (m.insert a v).lookup a = some v := by
  induction m with
  | nil => simp [Memory.insert, Memory.lookup]
  | cons cell m ih =>
    obtain ⟨b, w⟩ := cell
    by_cases hlt : a < b
    · simp [Memory.insert, hlt, Memory.lookup]
    · by_cases heq : a = b
      · simp [Memory.insert, heq, Memory.lookup]
      · simp [Memory.insert, hlt, heq, Memory.lookup, Ne.symm heq, ih]

theorem lookup_insert_other (m : Memory) {a c : Nat} (v : Byte) (h : c ≠ a) :
    (m.insert a v).lookup c = m.lookup c := by
  induction m with
  | nil => simp [Memory.insert, Memory.lookup, Ne.symm h]
  | cons cell m ih =>
    obtain ⟨b, w⟩ := cell
    by_cases hlt : a < b
    · simp [Memory.insert, hlt, Memory.lookup, Ne.symm h]
    · by_cases heq : a = b
      · subst heq
        simp [Memory.insert, Memory.lookup, Ne.symm h]
      · simp [Memory.insert, hlt, heq, Memory.lookup, ih]

/-- The canonical form read from the front: the rest is canonical and above the first address. -/
theorem wf_cons_iff (a : Nat) (v : Byte) (m : Memory) :
    Memory.wf ((a, v) :: m) = true ↔ (∀ c ∈ m.head?, a < c.1) ∧ m.wf = true := by
  cases m with
  | nil => simp [Memory.wf]
  | cons cell m =>
    obtain ⟨b, w⟩ := cell
    simp [Memory.wf]

/-- A write keeps the canonical form. -/
theorem wf_insert (m : Memory) (a : Nat) (v : Byte) (h : m.wf = true) : (m.insert a v).wf = true := by
  induction m with
  | nil => rfl
  | cons cell m ih =>
    obtain ⟨b, w⟩ := cell
    obtain ⟨hhead, htail⟩ := (wf_cons_iff b w m).1 h
    by_cases hlt : a < b
    · simp only [Memory.insert, if_pos hlt]
      exact (wf_cons_iff _ _ _).2 ⟨by simpa using hlt, h⟩
    · by_cases heq : a = b
      · simp only [Memory.insert, heq, lt_irrefl, if_false, if_true]
        exact (wf_cons_iff _ _ _).2 ⟨hhead, htail⟩
      · simp only [Memory.insert, if_neg hlt, if_neg heq]
        refine (wf_cons_iff _ _ _).2 ⟨?_, ih htail⟩
        cases m with
        | nil => simp [Memory.insert]; omega
        | cons cell' m' =>
          obtain ⟨c, x⟩ := cell'
          have hbc : b < c := by simpa using hhead
          by_cases h1 : a < c
          · simp [Memory.insert, h1]; omega
          · by_cases h2 : a = c
            · simp [Memory.insert, h2]; omega
            · simp [Memory.insert, h1, h2, hbc]

/-- A write lists no address but its own beside those listed before. -/
theorem mem_insert {m : Memory} {a : Nat} {v : Byte} {cell : Host.Cell} (h : cell ∈ m.insert a v) :
    cell.1 = a ∨ cell ∈ m := by
  induction m with
  | nil =>
    simp only [Memory.insert, List.mem_singleton] at h
    exact Or.inl (by simp [h])
  | cons first m ih =>
    obtain ⟨b, w⟩ := first
    simp only [Memory.insert] at h
    split at h
    · rcases List.mem_cons.1 h with rfl | h'
      · exact Or.inl rfl
      · exact Or.inr h'
    · split at h
      · rcases List.mem_cons.1 h with rfl | h'
        · exact Or.inl rfl
        · exact Or.inr (List.mem_cons_of_mem _ h')
      · rcases List.mem_cons.1 h with rfl | h'
        · exact Or.inr (by simp)
        · rcases ih h' with h'' | h''
          · exact Or.inl h''
          · exact Or.inr (List.mem_cons_of_mem _ h'')

/-- Two canonical buffers with the same listed cells are the same data. -/
theorem wf_ext {m n : Memory} (hm : m.wf = true) (hn : n.wf = true) (h : ∀ a, m.lookup a = n.lookup a) :
    m = n := by
  have absent : ∀ (k : Memory) (a : Nat), k.wf = true → (∀ c ∈ k.head?, a < c.1) → k.lookup a = none := by
    intro k
    induction k with
    | nil => intros; rfl
    | cons cell k ih =>
      obtain ⟨b, w⟩ := cell
      intro a hk ha
      obtain ⟨hhead, htail⟩ := (wf_cons_iff b w k).1 hk
      have hab : a < b := by simpa using ha
      have hne : b ≠ a := by omega
      simp only [Memory.lookup, if_neg hne]
      exact ih a htail (fun c hc => lt_trans hab (hhead c hc))
  induction m generalizing n with
  | nil =>
    cases n with
    | nil => rfl
    | cons cell n =>
      obtain ⟨b, w⟩ := cell
      have := h b
      simp [Memory.lookup] at this
  | cons cell m ih =>
    obtain ⟨a, v⟩ := cell
    cases n with
    | nil =>
      have := h a
      simp [Memory.lookup] at this
    | cons cell' n =>
      obtain ⟨b, w⟩ := cell'
      obtain ⟨hmh, hmt⟩ := (wf_cons_iff a v m).1 hm
      obtain ⟨hnh, hnt⟩ := (wf_cons_iff b w n).1 hn
      have hab : a = b := by
        rcases lt_trichotomy a b with hlt | heq | hgt
        · have h1 := h a
          rw [absent ((b, w) :: n) a hn (by simpa using hlt)] at h1
          simp [Memory.lookup] at h1
        · exact heq
        · have h1 := h b
          rw [absent ((a, v) :: m) b hm (by simpa using hgt)] at h1
          simp [Memory.lookup] at h1
      subst hab
      have hvw : v = w := by simpa [Memory.lookup] using h a
      subst hvw
      have hrest : m = n := by
        refine ih hmt hnt (fun c => ?_)
        by_cases hca : c = a
        · subst hca
          rw [absent m c hmt hmh, absent n c hnt hnh]
        · have := h c
          simpa [Memory.lookup, Ne.symm hca] using this
      rw [hrest]

end Sys2Proof.Machine
end

