-- ==== Sys2Proof/Laws/Ops.lean ====
section
/-! SUPPORT. One lemma per shared operation that says everything it can do. -/

namespace Sys2Proof.Machine

/-! ### MemRead -/

/-- A read depends on the parameters, the number of resets and the buffers, and on nothing else. -/
theorem memRead_congr {s t : State} (hc : t.config = s.config) (hr : t.resets = s.resets)
    (htx : t.txBuf = s.txBuf) (hrx : t.rxBuf = s.rxBuf) (sp : Space) (a : Nat) :
    t.memRead sp a = s.memRead sp a := by
  cases sp <;> simp [State.memRead, State.unlisted, hc, hr, htx, hrx]

/-- A read of the transmit space does not see the receive buffer. -/
theorem memRead_tx_congr {s t : State} (hc : t.config = s.config) (hr : t.resets = s.resets)
    (htx : t.txBuf = s.txBuf) (a : Nat) : t.memRead .tx a = s.memRead .tx a := by
  simp [State.memRead, State.unlisted, hc, hr, htx]

/-- A read of the receive space does not see the transmit buffer. -/
theorem memRead_rx_congr {s t : State} (hc : t.config = s.config) (hr : t.resets = s.resets)
    (hrx : t.rxBuf = s.rxBuf) (a : Nat) : t.memRead .rx a = s.memRead .rx a := by
  simp [State.memRead, State.unlisted, hc, hr, hrx]

/-- A cell that reads exists. -/
theorem memRead_lt {s : State} {sp : Space} {a : Nat} {b : Byte} (h : s.memRead sp a = some b) :
    a < s.size sp := by
  unfold State.memRead at h
  split at h
  · assumption
  · cases h

/-- Every cell that exists reads some byte (R34). -/
theorem memRead_of_lt {s : State} {sp : Space} {a : Nat} (h : a < s.size sp) : ∃ b, s.memRead sp a = some b :=
  ⟨_, if_pos h⟩

section
variable (s : State) (sp : Space) (c : Nat)
@[simp] theorem setEncWindow_memRead (a e : Nat) : (s.setEncWindow a e).memRead sp c = s.memRead sp c := by
  cases sp <;> rfl
@[simp] theorem setDecWindow_memRead (a e : Nat) : (s.setDecWindow a e).memRead sp c = s.memRead sp c := by
  cases sp <;> rfl
@[simp] theorem advanceEnc_memRead : s.advanceEnc.memRead sp c = s.memRead sp c := by cases sp <;> rfl
@[simp] theorem advanceDec_memRead : s.advanceDec.memRead sp c = s.memRead sp c := by cases sp <;> rfl
@[simp] theorem encReturn_memRead (b : Byte) : (encReturn b s).memRead sp c = s.memRead sp c := by
  cases sp <;> rfl
@[simp] theorem decReturn_memRead (r : Result) : (decReturn r s).memRead sp c = s.memRead sp c := by
  cases sp <;> rfl
@[simp] theorem hostReturn_memRead (v : ReadBack) : (hostReturn v s).memRead sp c = s.memRead sp c := by
  cases sp <;> rfl
@[simp] theorem withOutputs_memRead (tx : List Byte) (dec : List Result) (host : List ReadBack) :
    (s.withOutputs tx dec host).memRead sp c = s.memRead sp c := by
  cases sp <;> rfl
end

/-! ### MemWrite (R34) -/

/-- A write does not change the size of a space. -/
@[simp] theorem put_size (s : State) (sp sp' : Space) (a : Nat) (v : Byte) :
    (s.put sp a v).size sp' = s.size sp' := by
  cases sp' <;> simp

/-- The written cell reads the byte written. -/
theorem put_memRead_self (s : State) {sp : Space} {a : Nat} (v : Byte) (h : a < s.size sp) :
    (s.put sp a v).memRead sp a = some v := by
  cases sp <;> simp_all [State.memRead]

/-- No other cell of any space changes. -/
theorem put_memRead_other (s : State) {sp sp' : Space} {a c : Nat} (v : Byte) (h : sp' ≠ sp ∨ c ≠ a) :
    (s.put sp a v).memRead sp' c = s.memRead sp' c := by
  cases sp <;> cases sp' <;> simp_all [State.memRead, State.unlisted, lookup_insert_other]

/-- A write of the transmit space leaves the receive space alone. -/
@[simp] theorem put_tx_memRead_rx (s : State) (a c : Nat) (v : Byte) :
    (s.put .tx a v).memRead .rx c = s.memRead .rx c := put_memRead_other s v (Or.inl (by decide))

/-- A write of the receive space leaves the transmit space alone. -/
@[simp] theorem put_rx_memRead_tx (s : State) (a c : Nat) (v : Byte) :
    (s.put .rx a v).memRead .tx c = s.memRead .tx c := put_memRead_other s v (Or.inl (by decide))

theorem memWrite_eq_some {s t : State} {sp : Space} {a : Nat} {v : Byte} :
    s.memWrite sp a v = some t ↔ a < s.size sp ∧ s.put sp a v = t := by
  unfold State.memWrite
  split <;> simp_all

/-! ### Outcomes -/

@[simp] theorem andThen_next (s : State) (k : State → Out) : andThen (.next s) k = k s := rfl
@[simp] theorem andThen_fault (f : Fault) (k : State → Out) : andThen (.fault f) k = .fault f := rfl
@[simp] theorem andThen_refused (r : Refusal) (k : State → Out) : andThen (.refused r) k = .refused r := rfl

/-- A sequence answers a next state exactly when both parts do. -/
theorem andThen_eq_next {o : Out} {k : State → Out} {t : State} :
    andThen o k = .next t ↔ ∃ u, o = .next u ∧ k u = .next t := by
  cases o <;> simp [andThen]

theorem andThen_assoc (o : Out) (k l : State → Out) :
    andThen (andThen o k) l = andThen o (fun s => andThen (k s) l) := by
  cases o <;> rfl

/-- A unit's write to a cell that exists. -/
theorem store_of_lt {s : State} {sp : Space} {a : Nat} (v : Byte) (h : a < s.size sp) :
    store sp a v s = .next (s.put sp a v) := by
  simp [store, State.memWrite, h]

/-- Everything a unit's write can do. -/
theorem store_eq (sp : Space) (a : Nat) (v : Byte) (s : State) :
    store sp a v s = if a < s.size sp then .next (s.put sp a v) else .fault (.noSuchCell sp a) := by
  unfold store State.memWrite
  split <;> simp_all

theorem store_eq_next {sp : Space} {a : Nat} {v : Byte} {s t : State} :
    store sp a v s = .next t ↔ a < s.size sp ∧ t = s.put sp a v := by
  rw [store_eq]
  split <;> simp_all [eq_comm]

/-! ### Advance and prepare (R89) -/

/-- The buffer-full outcome. -/
theorem advanceAndPrepare_full {s : State} (h : s.decCur + 1 = s.decEnd) :
    advanceAndPrepare s = .next (decReturn .abort s.advanceDec) := by
  simp [advanceAndPrepare, h]

/-- The outcome with room. -/
theorem advanceAndPrepare_room {s : State} (h : s.decCur + 1 ≠ s.decEnd) (hlt : s.decCur + 1 < s.size .rx) :
    advanceAndPrepare s = .next (decReturn .pending (s.advanceDec.put .rx (s.decCur + 1) 0x7E#8)) := by
  simp only [advanceAndPrepare, advanceDec_decCur, advanceDec_decEnd, if_neg h]
  rw [store_of_lt _ (by simpa using hlt)]
  rfl

/-- Everything the step can do when it answers a next state. -/
theorem advanceAndPrepare_next {s t : State} (h : advanceAndPrepare s = .next t) :
    (s.decCur + 1 = s.decEnd ∧ t = decReturn .abort s.advanceDec) ∨
    (s.decCur + 1 ≠ s.decEnd ∧ s.decCur + 1 < s.size .rx ∧
      t = decReturn .pending (s.advanceDec.put .rx (s.decCur + 1) 0x7E#8)) := by
  simp only [advanceAndPrepare, advanceDec_decCur, advanceDec_decEnd] at h
  split at h
  · next hfull =>
    refine Or.inl ⟨hfull, ?_⟩
    cases h
    rfl
  · next hroom =>
    obtain ⟨u, hu, ht⟩ := andThen_eq_next.1 h
    obtain ⟨hlt, rfl⟩ := store_eq_next.1 hu
    refine Or.inr ⟨hroom, by simpa using hlt, ?_⟩
    cases ht
    rfl

/-- Storing a data byte in the last cell of the window. -/
theorem storeAndAdvance_full {s : State} (v : Byte) (hlt : s.decCur < s.size .rx) (h : s.decCur + 1 = s.decEnd) :
    storeAndAdvance v s = .next (decReturn .abort (s.put .rx s.decCur v).advanceDec) := by
  rw [storeAndAdvance, store_of_lt v hlt, andThen_next, advanceAndPrepare_full (by simpa using h)]

/-- Storing a data byte with a cell left for the marker. -/
theorem storeAndAdvance_room {s : State} (v : Byte) (h : s.decCur + 1 ≠ s.decEnd)
    (hlt : s.decCur + 1 < s.size .rx) :
    storeAndAdvance v s =
      .next (decReturn .pending ((s.put .rx s.decCur v).advanceDec.put .rx (s.decCur + 1) 0x7E#8)) := by
  rw [storeAndAdvance, store_of_lt v (by omega), andThen_next,
    advanceAndPrepare_room (by simpa using h) (by simpa using hlt)]
  simp

/-- Everything storing a data byte can do when it answers a next state. -/
theorem storeAndAdvance_next {s t : State} {v : Byte} (h : storeAndAdvance v s = .next t) :
    s.decCur < s.size .rx ∧
    ((s.decCur + 1 = s.decEnd ∧ t = decReturn .abort (s.put .rx s.decCur v).advanceDec) ∨
     (s.decCur + 1 ≠ s.decEnd ∧ s.decCur + 1 < s.size .rx ∧
       t = decReturn .pending ((s.put .rx s.decCur v).advanceDec.put .rx (s.decCur + 1) 0x7E#8))) := by
  obtain ⟨u, hu, ht⟩ := andThen_eq_next.1 h
  obtain ⟨hlt, rfl⟩ := store_eq_next.1 hu
  refine ⟨hlt, ?_⟩
  simpa using advanceAndPrepare_next ht

/-! ### Cases and selectors -/

/-- The guard. -/
theorem cellAtCursor_guard (sp : Space) (n : Nat) (s : State) : cellAtCursor sp n n s = .ok none := by
  simp [cellAtCursor]

/-- The cell, where the guard does not hold. -/
theorem cellAtCursor_cell {sp : Space} {cur bound : Nat} {s : State} {b : Byte} (h : cur ≠ bound)
    (hb : s.memRead sp cur = some b) : cellAtCursor sp cur bound s = .ok (some b) := by
  simp [cellAtCursor, h, hb]

/-- When the guard holds and when a cell is read. -/
theorem cellAtCursor_eq_ok {sp : Space} {cur bound : Nat} {s : State} {c : Option Byte} :
    cellAtCursor sp cur bound s = .ok c ↔
      (cur = bound ∧ c = none) ∨ (cur ≠ bound ∧ ∃ b, s.memRead sp cur = some b ∧ c = some b) := by
  unfold cellAtCursor
  split
  · simp_all [eq_comm]
  · cases s.memRead sp cur <;> simp_all [eq_comm]

/-- A case answers a next state only when its condition holds of the cell. -/
theorem inCase_eq_next {cell : Except Fault (Option Byte)} {p : Option Byte → Bool} {k : Out} {t : State} :
    inCase cell p k = .next t ↔ ∃ c, cell = .ok c ∧ p c = true ∧ k = .next t := by
  unfold inCase
  cases cell with
  | error f => simp
  | ok c => by_cases h : p c = true <;> simp [h]

/-- A selected case does what its rule says. -/
theorem inCase_of {cell : Except Fault (Option Byte)} {p : Option Byte → Bool} {k : Out} {c : Option Byte}
    (hc : cell = .ok c) (hp : p c = true) : inCase cell p k = k := by
  simp [inCase, hc, hp]

/-- The encoder's guard (R60). -/
theorem encCell_guard {s : State} (h : s.encCur = s.encEnd) : encCell s = .ok none := by
  rw [encCell, h, cellAtCursor_guard]

/-- The encoder's cell (R60). -/
theorem encCell_cell {s : State} {b : Byte} (h : s.encCur ≠ s.encEnd)
    (hb : s.memRead .tx s.encCur = some b) : encCell s = .ok (some b) := cellAtCursor_cell h hb

/-- The decoder's guard (R61). -/
theorem decState_guard {s : State} (h : s.decCur = s.decEnd) : decState s = .ok none := by
  rw [decState, h, cellAtCursor_guard]

/-- The decoder's state register (R17, R61). -/
theorem decState_cell {s : State} {b : Byte} (h : s.decCur ≠ s.decEnd)
    (hb : s.memRead .rx s.decCur = some b) : decState s = .ok (some b) := cellAtCursor_cell h hb

end Sys2Proof.Machine
end

