-- ==== Sys2Proof/Laws/Decode.lean ====
section
/-! SUPPORT. The selector tables read as tests on the state and the received byte: when a row matches, and the case a
selector decodes to. -/

namespace Sys2Proof

theorem byte_append_inj {x y z w : Byte} : x ++ y = z ++ w ↔ x = z ∧ y = w := by
  constructor
  · intro h
    have h' := congrArg BitVec.toNat h
    rw [BitVec.toNat_append, BitVec.toNat_append, ← Nat.shiftLeft_add_eq_or_of_lt y.isLt,
      ← Nat.shiftLeft_add_eq_or_of_lt w.isLt, Nat.shiftLeft_eq, Nat.shiftLeft_eq] at h'
    have hy := y.isLt
    have hw := w.isLt
    exact ⟨BitVec.eq_of_toNat_eq (by omega), BitVec.eq_of_toNat_eq (by omega)⟩
  · rintro ⟨rfl, rfl⟩
    rfl

/-- A row with mask 0xFFFF matches one state and one value. -/
theorem hits_full (state val ps pv : Byte) (p : SelectorWord) (hp : p = ps ++ pv) (f : Byte → Byte → Instr) :
    DecRow.hits ⟨p, 0xFFFF#16, f⟩ (selectorWord state val) = decide (state = ps ∧ val = pv) := by
  have hm : (0xFFFF#16) = BitVec.allOnes 16 := by decide
  simp only [DecRow.hits, selectorWord, hp, hm, BitVec.and_allOnes]
  rw [Bool.eq_iff_iff, beq_iff_eq, decide_eq_true_iff]
  exact byte_append_inj

/-- A row with mask 0xFF00 matches one state and any value. -/
theorem hits_state (state val ps : Byte) (p : SelectorWord) (hp : p = ps ++ 0#8) (f : Byte → Byte → Instr) :
    DecRow.hits ⟨p, 0xFF00#16, f⟩ (selectorWord state val) = decide (state = ps) := by
  have hm : (0xFF00#16) = BitVec.allOnes 8 ++ 0#8 := by decide
  simp only [DecRow.hits, selectorWord, hp, hm]
  rw [Bool.eq_iff_iff, beq_iff_eq, decide_eq_true_iff, BitVec.and_append, byte_append_inj, BitVec.and_allOnes]
  simp

/-- R61 and R80: the case of a state and a received byte. -/
theorem decodeDec_some (state val : Byte) :
    decodeDec (some state) val =
      if state = 0x7D#8 then
        (if val = 0x7D#8 then .decAcceptUnescEsc
         else if val = 0x7F#8 then .decAcceptUnescAbort
         else .decAcceptUnesc val)
      else if state = 0x00#8 then
        (if val = 0x7E#8 then .decAcceptSkip
         else if val = 0x7D#8 then .decAcceptEscinInit
         else if val = 0x7F#8 then .decAcceptSabortInit
         else .decAcceptDataInit val)
      else if state = 0x7E#8 then
        (if val = 0x7D#8 then .decAcceptEscinReady
         else if val = 0x7E#8 then .decAcceptDone
         else if val = 0x7F#8 then .decAcceptSabortReady
         else .decAcceptDataReady val)
      else .decAcceptCorrupt state val := by
  have r2 := hits_full state val 0x7D#8 0x7D#8 0x7D7D#16 (by decide)
  have r3 := hits_full state val 0x7D#8 0x7F#8 0x7D7F#16 (by decide)
  have r4 := hits_state state val 0x7D#8 0x7D00#16 (by decide)
  have r5 := hits_full state val 0x00#8 0x7E#8 0x007E#16 (by decide)
  have r6 := hits_full state val 0x00#8 0x7D#8 0x007D#16 (by decide)
  have r7 := hits_full state val 0x7E#8 0x7D#8 0x7E7D#16 (by decide)
  have r8 := hits_full state val 0x7E#8 0x7E#8 0x7E7E#16 (by decide)
  have r9 := hits_full state val 0x00#8 0x7F#8 0x007F#16 (by decide)
  have r10 := hits_full state val 0x7E#8 0x7F#8 0x7E7F#16 (by decide)
  have r11 := hits_state state val 0x00#8 0x0000#16 (by decide)
  have r12 := hits_state state val 0x7E#8 0x7E00#16 (by decide)
  simp only [decodeDec, decRows, List.find?, r2, r3, r4, r5, r6, r7, r8, r9, r10, r11, r12]
  by_cases h1 : state = 0x7D#8
  · subst h1
    by_cases h2 : val = 0x7D#8
    · simp [h2]
    · by_cases h3 : val = 0x7F#8 <;> simp [h2, h3]
  · by_cases h2 : state = 0x00#8
    · subst h2
      by_cases h3 : val = 0x7E#8
      · simp [h3]
      · by_cases h4 : val = 0x7D#8
        · simp [h4]
        · by_cases h5 : val = 0x7F#8 <;> simp [h3, h4, h5]
    · by_cases h3 : state = 0x7E#8
      · subst h3
        by_cases h4 : val = 0x7D#8
        · simp [h4]
        · by_cases h5 : val = 0x7E#8
          · simp [h5]
          · by_cases h6 : val = 0x7F#8 <;> simp [h4, h5, h6]
      · simp [h1, h2, h3]

/-- R60: the case of a byte at the encoder's cursor. -/
theorem decodeEnc_data {b : Byte} (h : reserved b = false) : decodeEnc (some b) = .encNextLit b := by
  obtain ⟨h1, h2, h3⟩ := (not_reserved_iff b).1 h
  simp [decodeEnc, h1, h2, h3]

end Sys2Proof
end

