-- ==== Sys2Proof/Laws/Units.lean ====
section
/-! SUPPORT. What one requested operation of a unit does, by the state it meets: the form in which runs over frames
cite the case rules. -/

namespace Sys2Proof.Machine

/-! ### ENC.NEXT -/

/-- R71. -/
theorem perform_encNext_end {s : State} (h : s.encCur = s.encEnd) :
    perform .encNext s = .next (encReturn 0x7E#8 s) := by
  simp [perform, select, encCell_guard h, Except.map, decode, decodeEnc, exec, execEncNextEnd, inCase]

/-- R72. -/
theorem perform_encNext_stuff {s : State} {b : Byte} (h : s.encCur ≠ s.encEnd)
    (hb : s.memRead .tx s.encCur = some b) (hr : reserved b = true) :
    perform .encNext s = .next (encReturn 0x7D#8 (s.put .tx s.encCur (escapeX b))) := by
  have hlt := memRead_lt hb
  rcases (reserved_iff b).1 hr with rfl | rfl | rfl <;>
    simp [perform, select, encCell_cell h hb, Except.map, decode, decodeEnc, exec, execEncNextStuffEsc,
      execEncNextStuffFlag, execEncNextStuffAbort, encStuff, inCase, store_of_lt _ hlt]

/-- R73. -/
theorem perform_encNext_lit {s : State} {b : Byte} (h : s.encCur ≠ s.encEnd)
    (hb : s.memRead .tx s.encCur = some b) (hr : reserved b = false) :
    perform .encNext s = .next (encReturn b s.advanceEnc) := by
  simp [perform, select, encCell_cell h hb, Except.map, decode, decodeEnc_data hr, exec, execEncNextLit, inCase, hr]

/-! ### DEC.ACCEPT -/

/-- R81. -/
theorem perform_decAccept_exh {s : State} (val : Byte) (h : s.decCur = s.decEnd) :
    perform (.decAccept val) s = .next (decReturn .abort s) := by
  simp [perform, select, decState_guard h, Except.map, decode, decodeDec, exec, execDecAcceptExh, inCase]

/-- R80: with a state register, the case is decoded from it and the byte. -/
theorem perform_decAccept_cell {s : State} {st : Byte} (val : Byte) (h : s.decCur ≠ s.decEnd)
    (hst : s.memRead .rx s.decCur = some st) :
    perform (.decAccept val) s = exec (decodeDec (some st) val) s := by
  simp [perform, select, decState_cell h hst, Except.map, decode]

/-- R82. -/
theorem perform_decAccept_unesc {s : State} (val : Byte) (h : s.decCur ≠ s.decEnd)
    (hst : s.memRead .rx s.decCur = some 0x7D#8) :
    perform (.decAccept val) s =
      if s.config.policy = .abort ∧ (val = 0x7D#8 ∨ val = 0x7F#8) then .next (decReturn .abort s)
      else storeAndAdvance (escapeX val) s := by
  rw [perform_decAccept_cell val h hst, decodeDec_some]
  by_cases h1 : val = 0x7D#8
  · subst h1
    simp [exec, execDecAcceptUnescEsc, decUnesc, decState_cell h hst, inCase]
  · by_cases h2 : val = 0x7F#8
    · subst h2
      simp [exec, execDecAcceptUnescAbort, decUnesc, decState_cell h hst, inCase]
    · simp [h1, h2, exec, execDecAcceptUnesc, decUnesc, decState_cell h hst, inCase]

/-- R83. -/
theorem perform_decAccept_skip {s : State} (h : s.decCur ≠ s.decEnd)
    (hst : s.memRead .rx s.decCur = some 0x00#8) :
    perform (.decAccept 0x7E#8) s = .next (decReturn .pending s) := by
  rw [perform_decAccept_cell _ h hst, decodeDec_some]
  simp [exec, execDecAcceptSkip, decState_cell h hst, inCase]

/-- R84. -/
theorem perform_decAccept_escin {s : State} {st : Byte} (h : s.decCur ≠ s.decEnd)
    (hst : s.memRead .rx s.decCur = some st) (hl : st = 0x00#8 ∨ st = 0x7E#8) :
    perform (.decAccept 0x7D#8) s = .next (decReturn .pending (s.put .rx s.decCur 0x7D#8)) := by
  have hlt := memRead_lt hst
  rw [perform_decAccept_cell _ h hst, decodeDec_some]
  rcases hl with rfl | rfl <;>
    simp [exec, execDecAcceptEscinInit, execDecAcceptEscinReady, decEscin, decState_cell h hst, inCase,
      store_of_lt _ hlt]

/-- R85. -/
theorem perform_decAccept_done {s : State} (h : s.decCur ≠ s.decEnd)
    (hst : s.memRead .rx s.decCur = some 0x7E#8) :
    perform (.decAccept 0x7E#8) s = .next (decReturn .frameComplete s) := by
  rw [perform_decAccept_cell _ h hst, decodeDec_some]
  simp [exec, execDecAcceptDone, decState_cell h hst, inCase]

/-- R86. -/
theorem perform_decAccept_sabort {s : State} {st : Byte} (h : s.decCur ≠ s.decEnd)
    (hst : s.memRead .rx s.decCur = some st) (hl : st = 0x00#8 ∨ st = 0x7E#8) :
    perform (.decAccept 0x7F#8) s = .next (decReturn .abort (s.put .rx s.decCur 0x7F#8)) := by
  have hlt := memRead_lt hst
  rw [perform_decAccept_cell _ h hst, decodeDec_some]
  rcases hl with rfl | rfl <;>
    simp [exec, execDecAcceptSabortInit, execDecAcceptSabortReady, decSabort, decState_cell h hst, inCase,
      store_of_lt _ hlt]

/-- R87. -/
theorem perform_decAccept_data {s : State} {st : Byte} {val : Byte} (h : s.decCur ≠ s.decEnd)
    (hst : s.memRead .rx s.decCur = some st) (hl : st = 0x00#8 ∨ st = 0x7E#8) (hv : reserved val = false) :
    perform (.decAccept val) s = storeAndAdvance val s := by
  obtain ⟨h1, h2, h3⟩ := (not_reserved_iff val).1 hv
  rw [perform_decAccept_cell _ h hst, decodeDec_some]
  rcases hl with rfl | rfl <;>
    simp [h1, h2, h3, exec, execDecAcceptDataInit, execDecAcceptDataReady, decData, decState_cell h hst, inCase, hv]

/-- R88. -/
theorem perform_decAccept_corrupt {s : State} {st : Byte} (val : Byte) (h : s.decCur ≠ s.decEnd)
    (hst : s.memRead .rx s.decCur = some st) (hl : legalState st = false) :
    perform (.decAccept val) s = .next (decReturn .abort s) := by
  have hn : st ≠ 0x00#8 ∧ st ≠ 0x7E#8 ∧ st ≠ 0x7D#8 := by
    have hnot := (legalState_iff st).not.1 (by simp [hl])
    tauto
  obtain ⟨h1, h2, h3⟩ := hn
  rw [perform_decAccept_cell _ h hst, decodeDec_some]
  simp [h1, h2, h3, exec, execDecAcceptCorrupt, decState_cell h hst, inCase, hl]

/-! ### Runs -/

@[simp] theorem performAll_nil (s : State) : performAll [] s = .next s := rfl

@[simp] theorem performAll_cons (r : Request) (rs : List Request) (s : State) :
    performAll (r :: rs) s = andThen (perform r s) (performAll rs) := rfl

/-- A run of two parts is one part after the other. -/
theorem performAll_append (rs rs' : List Request) (s : State) :
    performAll (rs ++ rs') s = andThen (performAll rs s) (performAll rs') := by
  induction rs generalizing s with
  | nil => rfl
  | cons r rs ih =>
    simp only [List.cons_append, performAll_cons, andThen_assoc]
    congr 1
    funext t
    exact ih t

end Sys2Proof.Machine
end

