-- ==== Sys2Proof/Laws/Cases.lean ====
section
/-! SUPPORT. What a case of a unit can do, said once: if it answers a next state, the state is one of these. Frames and
invariants are derived from `enc_outcome` and `dec_outcome` and unfold no case. -/

namespace Sys2Proof.Machine

/-! ### The shared operations -/

/-- Everything R72 can do. -/
theorem encStuff_next {b : Byte} {s t : State} (h : encStuff b s = .next t) :
    s.encCur ≠ s.encEnd ∧ s.memRead .tx s.encCur = some b ∧
      t = encReturn 0x7D#8 (s.put .tx s.encCur (escapeX b)) := by
  obtain ⟨c, hc, hp, hk⟩ := inCase_eq_next.1 h
  obtain ⟨u, hu, ht⟩ := andThen_eq_next.1 hk
  obtain ⟨_, rfl⟩ := store_eq_next.1 hu
  obtain rfl : c = some b := by simpa using hp
  rcases cellAtCursor_eq_ok.1 hc with ⟨_, h2⟩ | ⟨h1, _, h2, h3⟩
  · cases h2
  · cases h3
    cases ht
    exact ⟨h1, h2, rfl⟩

/-- Everything a case of R84 or R86 can do: a marker is written at the cursor. -/
theorem marker_next {st v : Byte} {r : Result} {s t : State}
    (h : inCase (decState s) (fun c => c == some st)
      (andThen (store .rx s.decCur v s) (fun u => .next (decReturn r u))) = .next t) :
    s.decCur < s.size .rx ∧ s.decCur ≠ s.decEnd ∧ s.memRead .rx s.decCur = some st ∧
      t = decReturn r (s.put .rx s.decCur v) := by
  obtain ⟨c, hc, hp, hk⟩ := inCase_eq_next.1 h
  obtain ⟨u, hu, ht⟩ := andThen_eq_next.1 hk
  obtain ⟨hlt, rfl⟩ := store_eq_next.1 hu
  obtain rfl : c = some st := by simpa using hp
  rcases cellAtCursor_eq_ok.1 hc with ⟨_, h2⟩ | ⟨h1, _, h2, h3⟩
  · cases h2
  · cases h3
    cases ht
    exact ⟨hlt, h1, h2, rfl⟩

/-- Everything a case that writes nothing can do: its result. -/
theorem resultOnly_next {p : Option Byte → Bool} {s t : State} {r : Result}
    (h : inCase (decState s) p (.next (decReturn r s)) = .next t) : t = decReturn r s := by
  obtain ⟨_, _, _, hk⟩ := inCase_eq_next.1 h
  cases hk
  rfl

/-! ### ENC.NEXT -/

/-- What a case of `ENC.NEXT` does. -/
inductive EncOutcome (i : Instr) (s : State) : State → Prop where
  | sent (hi : i = .encNextEnd) (h : s.encCur = s.encEnd) : EncOutcome i s (encReturn 0x7E#8 s)
  | stuffed (b : Byte) (hi : i = .encNextStuffEsc ∨ i = .encNextStuffFlag ∨ i = .encNextStuffAbort)
      (hr : reserved b = true) (h : s.encCur ≠ s.encEnd) (hb : s.memRead .tx s.encCur = some b) :
      EncOutcome i s (encReturn 0x7D#8 (s.put .tx s.encCur (escapeX b)))
  | literal (b : Byte) (hi : i = .encNextLit b) (hr : reserved b = false) (h : s.encCur ≠ s.encEnd)
      (hb : s.memRead .tx s.encCur = some b) : EncOutcome i s (encReturn b s.advanceEnc)

/-- If a case of `ENC.NEXT` answers a next state, it is one of the three. -/
theorem enc_outcome {i : Instr} {s t : State} (hf : (encode i).format = .enc) (h : exec i s = .next t) :
    EncOutcome i s t := by
  cases i <;> simp [encode, Selector.format] at hf
  case encNextEnd =>
    obtain ⟨c, hc, hp, hk⟩ := inCase_eq_next.1 h
    cases hk
    obtain rfl : c = none := by simpa using hp
    rcases cellAtCursor_eq_ok.1 hc with ⟨h1, _⟩ | ⟨_, _, _, h3⟩
    · exact .sent rfl h1
    · cases h3
  case encNextStuffEsc =>
    obtain ⟨h1, h2, rfl⟩ := encStuff_next h
    exact .stuffed _ (by simp) (by decide) h1 h2
  case encNextStuffFlag =>
    obtain ⟨h1, h2, rfl⟩ := encStuff_next h
    exact .stuffed _ (by simp) (by decide) h1 h2
  case encNextStuffAbort =>
    obtain ⟨h1, h2, rfl⟩ := encStuff_next h
    exact .stuffed _ (by simp) (by decide) h1 h2
  case encNextLit b =>
    obtain ⟨c, hc, hp, hk⟩ := inCase_eq_next.1 h
    cases hk
    obtain ⟨rfl, hr⟩ : c = some b ∧ reserved b = false := by simpa using hp
    rcases cellAtCursor_eq_ok.1 hc with ⟨_, h2⟩ | ⟨h1, _, h2, h3⟩
    · cases h2
    · cases h3
      exact .literal b rfl hr h1 h2

/-- A performed `ENC.NEXT` runs one of its cases. -/
theorem perform_encNext_case {s t : State} (h : perform .encNext s = .next t) :
    ∃ i, (encode i).format = .enc ∧ exec i s = .next t := by
  unfold perform at h
  cases hs : encCell s with
  | error f => simp [select, hs, Except.map] at h
  | ok c =>
    simp only [select, hs, Except.map, decode] at h
    refine ⟨_, ?_, h⟩
    cases c with
    | none => rfl
    | some b =>
      simp only [decodeEnc]
      split_ifs <;> rfl

/-! ### DEC.ACCEPT -/

/-- What a case of `DEC.ACCEPT` does. -/
inductive DecOutcome (s : State) : State → Prop where
  | result (r : Result) : DecOutcome s (decReturn r s)
  | marker (v : Byte) (r : Result) (hlt : s.decCur < s.size .rx) (h : s.decCur ≠ s.decEnd) :
      DecOutcome s (decReturn r (s.put .rx s.decCur v))
  | full (v : Byte) (hlt : s.decCur < s.size .rx) (h : s.decCur ≠ s.decEnd) (hend : s.decCur + 1 = s.decEnd) :
      DecOutcome s (decReturn .abort (s.put .rx s.decCur v).advanceDec)
  | room (v : Byte) (hlt : s.decCur < s.size .rx) (h : s.decCur ≠ s.decEnd) (hend : s.decCur + 1 ≠ s.decEnd)
      (hlt' : s.decCur + 1 < s.size .rx) :
      DecOutcome s (decReturn .pending ((s.put .rx s.decCur v).advanceDec.put .rx (s.decCur + 1) 0x7E#8))

/-- A case that stores a data byte ends full or with room. -/
theorem dataCase_outcome {v : Byte} {s t : State} {p : Option Byte → Bool} (hp : p none = false)
    (h : inCase (decState s) p (storeAndAdvance v s) = .next t) : DecOutcome s t := by
  obtain ⟨c, hc, hpc, hk⟩ := inCase_eq_next.1 h
  have hne : s.decCur ≠ s.decEnd := by
    rcases cellAtCursor_eq_ok.1 hc with ⟨_, rfl⟩ | ⟨h1, _⟩
    · simp [hp] at hpc
    · exact h1
  obtain ⟨hlt, ⟨h1, rfl⟩ | ⟨h1, h2, rfl⟩⟩ := storeAndAdvance_next hk
  · exact .full v hlt hne h1
  · exact .room v hlt hne h1 h2

theorem decUnesc_outcome {v : Byte} {s t : State} (h : decUnesc v s = .next t) : DecOutcome s t := by
  unfold decUnesc at h
  split at h
  · obtain rfl := resultOnly_next h
    exact .result _
  · exact dataCase_outcome (by decide) h

/-- If a case of `DEC.ACCEPT` answers a next state, it is one of the four. -/
theorem dec_outcome {i : Instr} {s t : State} (hf : (encode i).format = .dec) (h : exec i s = .next t) :
    DecOutcome s t := by
  cases i <;> simp [encode, Selector.format] at hf
  case decAcceptExh val =>
    obtain rfl := resultOnly_next h
    exact .result _
  case decAcceptUnescEsc => exact decUnesc_outcome h
  case decAcceptUnescAbort => exact decUnesc_outcome h
  case decAcceptUnesc val =>
    simp only [exec, execDecAcceptUnesc] at h
    split at h
    · cases h
    · exact decUnesc_outcome h
  case decAcceptSkip =>
    obtain rfl := resultOnly_next h
    exact .result _
  case decAcceptEscinInit =>
    obtain ⟨h1, h2, _, rfl⟩ := marker_next h
    exact .marker _ _ h1 h2
  case decAcceptEscinReady =>
    obtain ⟨h1, h2, _, rfl⟩ := marker_next h
    exact .marker _ _ h1 h2
  case decAcceptDone =>
    obtain rfl := resultOnly_next h
    exact .result _
  case decAcceptSabortInit =>
    obtain ⟨h1, h2, _, rfl⟩ := marker_next h
    exact .marker _ _ h1 h2
  case decAcceptSabortReady =>
    obtain ⟨h1, h2, _, rfl⟩ := marker_next h
    exact .marker _ _ h1 h2
  case decAcceptDataInit val => exact dataCase_outcome rfl h
  case decAcceptDataReady val => exact dataCase_outcome rfl h
  case decAcceptCorrupt state val =>
    obtain rfl := resultOnly_next h
    exact .result _

/-- A performed `DEC.ACCEPT` runs one of its cases. -/
theorem perform_decAccept_case {s t : State} {val : Byte} (h : perform (.decAccept val) s = .next t) :
    ∃ i, (encode i).format = .dec ∧ exec i s = .next t := by
  unfold perform at h
  cases hs : decState s with
  | error f => simp [select, hs, Except.map] at h
  | ok c =>
    simp only [select, hs, Except.map, decode] at h
    refine ⟨_, ?_, h⟩
    cases c with
    | none => rfl
    | some st =>
      simp only [decodeDec_some]
      split_ifs <;> rfl

end Sys2Proof.Machine
end

