-- ==== Sys2Proof/Laws/HostOps.lean ====
section
/-! SUPPORT. What the host operations' shared parts can do, said once. -/

namespace Sys2Proof.Machine

/-! ### One cell -/

/-- Everything a host write can do (R102, R104). -/
theorem hostWrite_eq (sp : Space) (a : Nat) (v : Byte) (s : State) :
    hostWrite sp a v s = if a < s.size sp then .next (s.put sp a v) else .refused .addressOutOfRange := by
  unfold hostWrite State.memWrite
  by_cases h : a < s.size sp <;> simp [h]

/-- A host read of a cell that exists (R103, R105). -/
theorem hostRead_of {sp : Space} {a : Nat} {b : Byte} {s : State} (h : s.memRead sp a = some b) :
    hostRead sp a s = .next (hostReturn (.cell b) s) := by
  simp [hostRead, h]

/-- A host read outside the buffer. -/
theorem hostRead_refused {sp : Space} {a : Nat} {s : State} (h : ¬ a < s.size sp) :
    hostRead sp a s = .refused .addressOutOfRange := by
  simp [hostRead, State.memRead, h]

/-- What a host read answers when it answers a next state. -/
theorem hostRead_next {sp : Space} {a : Nat} {s t : State} (h : hostRead sp a s = .next t) :
    ∃ b, s.memRead sp a = some b ∧ t = hostReturn (.cell b) s := by
  unfold hostRead at h
  split at h
  · next b hb =>
    cases h
    exact ⟨b, hb, rfl⟩
  · cases h

/-! ### The buffers' own invariant -/

/-- A write to a cell that exists keeps both buffers canonical. -/
theorem put_wf {s : State} (sp : Space) (a : Nat) (v : Byte) (htx : s.txBuf.wf = true) (hrx : s.rxBuf.wf = true) :
    (s.put sp a v).txBuf.wf = true ∧ (s.put sp a v).rxBuf.wf = true := by
  cases sp
  · exact ⟨wf_insert _ _ _ htx, hrx⟩
  · exact ⟨htx, wf_insert _ _ _ hrx⟩

/-- A write to a cell that exists lists only cells that exist. -/
theorem put_cellsExist {s : State} {sp : Space} {a : Nat} (v : Byte) (ha : a < s.size sp) (h : s.CellsExist) :
    (s.put sp a v).CellsExist := by
  obtain ⟨htx, hrx⟩ := h
  cases sp
  · refine ⟨fun cell hc => ?_, hrx⟩
    rcases mem_insert hc with h1 | h1
    · rw [h1]; exact ha
    · exact htx cell h1
  · refine ⟨htx, fun cell hc => ?_⟩
    rcases mem_insert hc with h1 | h1
    · rw [h1]; exact ha
    · exact hrx cell h1

/-! ### TX.FRAME's writes (R107) -/

/-- Bytes that fit are all written. -/
theorem writeFrame_fits {a : Nat} {bytes : List Byte} {s : State} (h : a + bytes.length ≤ s.size .tx) :
    ∃ t, writeFrame a bytes s = .next t := by
  induction bytes generalizing a s with
  | nil => exact ⟨s, rfl⟩
  | cons b bytes ih =>
    simp only [List.length_cons] at h
    have hlt : a < s.size .tx := by omega
    simp only [writeFrame, execTxWrite, hostWrite_eq, if_pos hlt, andThen_next]
    exact ih (by rw [put_size]; omega)

/-- Everything the writes can do when they answer a next state: only `TXBUF` differs, it holds the bytes, its other
cells read as before, and its invariant is kept. -/
theorem writeFrame_next {a : Nat} {bytes : List Byte} {s t : State} (h : writeFrame a bytes s = .next t) :
    t = { s with txBuf := t.txBuf } ∧
    (∀ i b, bytes[i]? = some b → t.memRead .tx (a + i) = some b) ∧
    (∀ c, (c < a ∨ a + bytes.length ≤ c) → t.memRead .tx c = s.memRead .tx c) ∧
    (s.txBuf.wf = true → t.txBuf.wf = true) ∧
    (s.CellsExist → t.CellsExist) := by
  induction bytes generalizing a s with
  | nil =>
    cases h
    exact ⟨rfl, by simp, fun _ _ => rfl, id, id⟩
  | cons b bytes ih =>
    simp only [writeFrame, execTxWrite, hostWrite_eq] at h
    split at h
    · next hlt =>
      obtain ⟨h1, h2, h3, h4, h5⟩ := ih h
      refine ⟨?_, fun i c hi => ?_, fun c hc => ?_, fun hw => h4 (wf_insert _ _ _ hw),
        fun he => h5 (put_cellsExist b hlt he)⟩
      · rw [h1]
        rfl
      · cases i with
        | zero =>
          have hb : b = c := by simpa using hi
          subst hb
          rw [h3 (a + 0) (Or.inl (by omega))]
          exact put_memRead_self s b hlt
        | succ i =>
          have := h2 i c (by simpa using hi)
          rwa [Nat.add_right_comm, Nat.add_assoc] at this
      · simp only [List.length_cons] at hc
        rw [h3 c (by omega), put_memRead_other s b (Or.inr (by omega))]
    · cases h

end Sys2Proof.Machine
end

