-- ==== Sys2Proof/Laws/HostProcedures.lean ====
section
/-! SUPPORT. What the host's resynchronisation can do, said once. -/

namespace Sys2Proof.Machine

/-- R154, step 3: what is dropped is everything up to the first `FLAG`, and that `FLAG`. -/
theorem dropToFlag_eq_some {w rest : List Byte} :
    dropToFlag w = some rest ↔ ∃ dropped, w = dropped ++ FLAG :: rest ∧ FLAG ∉ dropped := by
  induction w with
  | nil => simp [dropToFlag]
  | cons b w ih =>
    by_cases hb : b = FLAG
    · subst hb
      simp only [dropToFlag, if_true, Option.some.injEq]
      constructor
      · rintro rfl
        exact ⟨[], by simp⟩
      · rintro ⟨dropped, hw, hd⟩
        cases dropped with
        | nil => simpa using hw
        | cons c dropped =>
          obtain ⟨rfl, -⟩ := List.cons.inj hw
          exact absurd (List.mem_cons_self ..) hd
    · simp only [dropToFlag, if_neg hb, ih]
      constructor
      · rintro ⟨dropped, rfl, hd⟩
        exact ⟨b :: dropped, rfl, by simp only [List.mem_cons, not_or]; exact ⟨Ne.symm hb, hd⟩⟩
      · rintro ⟨dropped, hw, hd⟩
        cases dropped with
        | nil => exact absurd (List.cons.inj hw).1 hb
        | cons c dropped =>
          exact ⟨dropped, (List.cons.inj hw).2, fun h => hd (List.mem_cons_of_mem _ h)⟩

/-- The host goes on dropping exactly while the wire holds no `FLAG`. -/
theorem dropToFlag_eq_none {w : List Byte} : dropToFlag w = none ↔ FLAG ∉ w := by
  induction w with
  | nil => simp [dropToFlag]
  | cons b w ih =>
    by_cases hb : b = FLAG
    · simp [dropToFlag, hb]
    · simp only [dropToFlag, if_neg hb, ih, List.mem_cons, not_or]
      exact ⟨fun h => ⟨Ne.symm hb, h⟩, And.right⟩

/-- Once a `FLAG` has been observed a window is opened and the rest is fed. -/
theorem resync_observed {b : Byte} {w rest : List Byte} (s e : Nat) (h : observedFlag b w = some rest) :
    resync b w s e = .host .decCur :: .host (.rxOpen s e) :: rest.map Request.decAccept := by
  simp [resync, h]

/-- While none has been, nothing but the cursor is asked for. -/
theorem resync_waiting {b : Byte} {w : List Byte} (s e : Nat) (h : observedFlag b w = none) :
    resync b w s e = [.host .decCur] := by
  simp [resync, h]

end Sys2Proof.Machine
end

