-- ==== Sys2Proof/Laws/PerInstr.lean ====
section
/-! SUPPORT. Statements about every instruction as syntax, one lemma per constructor. -/

namespace Sys2Proof.Laws.EncodeFormat

/-- The unit, or the host port, that an instruction belongs to by the table's column `format`. -/
def expected : Instr → Format
  | .encNextEnd | .encNextStuffEsc | .encNextStuffFlag | .encNextStuffAbort | .encNextLit _ => .enc
  | .decAcceptExh _ | .decAcceptUnescEsc | .decAcceptUnescAbort | .decAcceptUnesc _ | .decAcceptSkip => .dec
  | .decAcceptEscinInit | .decAcceptEscinReady | .decAcceptDone | .decAcceptSabortInit => .dec
  | .decAcceptSabortReady | .decAcceptDataInit _ | .decAcceptDataReady _ | .decAcceptCorrupt _ _ => .dec
  | .encLoad _ _ | .decLoad _ _ | .txWrite _ _ | .txRead _ | .rxWrite _ _ | .rxRead _ => .host
  | .encCur | .decCur | .decSeed | .txFrame _ _ | .rxOpen _ _ | .reset => .host

/-- An instruction's selector is one of its own unit. -/
def Statement (i : Instr) : Prop := (encode i).format = expected i

theorem encNextEnd : Statement .encNextEnd := rfl
theorem encNextStuffEsc : Statement .encNextStuffEsc := rfl
theorem encNextStuffFlag : Statement .encNextStuffFlag := rfl
theorem encNextStuffAbort : Statement .encNextStuffAbort := rfl
theorem encNextLit (b : Byte) : Statement (.encNextLit b) := rfl
theorem decAcceptExh (val : Byte) : Statement (.decAcceptExh val) := rfl
theorem decAcceptUnescEsc : Statement .decAcceptUnescEsc := rfl
theorem decAcceptUnescAbort : Statement .decAcceptUnescAbort := rfl
theorem decAcceptUnesc (val : Byte) : Statement (.decAcceptUnesc val) := rfl
theorem decAcceptSkip : Statement .decAcceptSkip := rfl
theorem decAcceptEscinInit : Statement .decAcceptEscinInit := rfl
theorem decAcceptEscinReady : Statement .decAcceptEscinReady := rfl
theorem decAcceptDone : Statement .decAcceptDone := rfl
theorem decAcceptSabortInit : Statement .decAcceptSabortInit := rfl
theorem decAcceptSabortReady : Statement .decAcceptSabortReady := rfl
theorem decAcceptDataInit (val : Byte) : Statement (.decAcceptDataInit val) := rfl
theorem decAcceptDataReady (val : Byte) : Statement (.decAcceptDataReady val) := rfl
theorem decAcceptCorrupt (state val : Byte) : Statement (.decAcceptCorrupt state val) := rfl
theorem encLoad (s e : Nat) : Statement (.encLoad s e) := rfl
theorem decLoad (s e : Nat) : Statement (.decLoad s e) := rfl
theorem txWrite (a : Nat) (v : Byte) : Statement (.txWrite a v) := rfl
theorem txRead (a : Nat) : Statement (.txRead a) := rfl
theorem rxWrite (a : Nat) (v : Byte) : Statement (.rxWrite a v) := rfl
theorem rxRead (a : Nat) : Statement (.rxRead a) := rfl
theorem encCur : Statement .encCur := rfl
theorem decCur : Statement .decCur := rfl
theorem decSeed : Statement .decSeed := rfl
theorem txFrame (s : Nat) (bytes : List Byte) : Statement (.txFrame s bytes) := rfl
theorem rxOpen (s e : Nat) : Statement (.rxOpen s e) := rfl
theorem reset : Statement .reset := rfl

end Sys2Proof.Laws.EncodeFormat
end

