-- ==== Sys2Proof/Tests/Slice0.lean ====
section
/-! SUPPORT. Tests of the model against the spec's own tables and vectors, and for every statement with hypotheses a
named witness that meets them. Expected results come from 30_encoding.md (encodings) and 95_test_vectors.md. -/

namespace Sys2Proof.Tests

open Sys2Proof.Machine

/-! ### Small blocks -/

/-- Cells from an address upward. -/
def cells : Nat → List Byte → Memory
  | _, [] => []
  | a, b :: bytes => (a, b) :: cells (a + 1) bytes

/-- A block whose buffers are exactly the given bytes. -/
def block (policy : EscReservedPolicy) (encCur encEnd : Nat) (tx : List Byte) (decCur decEnd : Nat) (rx : List Byte) :
    State :=
  { State.resetWith { txSize := tx.length, rxSize := rx.length, policy := policy } with
    encCur := encCur, encEnd := encEnd, txBuf := cells 0 tx, decCur := decCur, decEnd := decEnd, rxBuf := cells 0 rx }

/-- An encoder with its window; the decoder has no buffer. -/
def encBlock (cur bound : Nat) (tx : List Byte) : State := block .unstuff cur bound tx 0 0 []

/-- A decoder with its window; the encoder has no buffer. -/
def decBlock (policy : EscReservedPolicy) (cur bound : Nat) (rx : List Byte) : State := block policy 0 0 [] cur bound rx

/-- The decoder of 95_test_vectors.md section 3: the state byte at cell 1, room to advance. -/
def roomy (state : Byte) : State := decBlock .unstuff 1 4 [0xAA#8, state, 0xBB#8, 0xCC#8]

/-- The same at the last cell of its window. -/
def tight (state : Byte) : State := decBlock .unstuff 1 2 [0xAA#8, state]

/-- The block of 95_test_vectors.md section 4: eight cells on each side. -/
def hostBlock : State :=
  block .unstuff 0 0 (List.replicate 8 0x11#8) 6 6 [0x31#8, 0x32#8, 0x33#8, 0x34#8, 0x35#8, 0x36#8, 0x37#8, 0x38#8]

/-- One step on one request ends in a next state with a property. -/
def stepGives (s : State) (r : Request) (p : State → Bool) : Bool :=
  match step { s with requests := [r] } with
  | .next t => p t
  | _ => false

/-- One instruction ends in a next state with a property. -/
def execGives (i : Instr) (s : State) (p : State → Bool) : Bool :=
  match exec i s with
  | .next t => p t
  | _ => false

/-- A line of 95_test_vectors.md section 2: the byte returned, the cursor and the buffer afterwards. -/
def encLine (s : State) (returned : Byte) (cur : Nat) (tx : List Byte) : Bool :=
  stepGives s .encNext (fun t =>
    t.txBytes == [returned] && t.encCur == cur && t.encEnd == s.encEnd && t.txBuf == cells 0 tx && t.requests == [])

/-- A line of 95_test_vectors.md section 3: the result, the cursor and the buffer afterwards. -/
def decLine (s : State) (val : Byte) (result : Result) (cur : Nat) (rx : List Byte) : Bool :=
  stepGives s (.decAccept val) (fun t =>
    t.decResults == [result] && t.decCur == cur && t.decEnd == s.decEnd && t.rxBuf == cells 0 rx)

/-- One host operation is refused under a name. -/
def refusedAs (op : HostOp) (s : State) (why : Refusal) : Bool :=
  match step { s with requests := [.host op] } with
  | .refused r => r == why
  | _ => false

/-! ### WellFormed: each check refuses an ill-formed term -/

theorem test_ill_formed_lit : (Instr.encNextLit 0x7D#8).wellFormed = false := by decide
theorem test_ill_formed_unesc_esc : (Instr.decAcceptUnesc 0x7D#8).wellFormed = false := by decide
theorem test_ill_formed_unesc_abort : (Instr.decAcceptUnesc 0x7F#8).wellFormed = false := by decide
theorem test_ill_formed_data_init : (Instr.decAcceptDataInit 0x7E#8).wellFormed = false := by decide
theorem test_ill_formed_data_ready : (Instr.decAcceptDataReady 0x7F#8).wellFormed = false := by decide
theorem test_ill_formed_corrupt : (Instr.decAcceptCorrupt 0x7E#8 0x41#8).wellFormed = false := by decide
theorem test_well_formed_neighbours :
    (Instr.encNextLit 0x7C#8).wellFormed = true ∧ (Instr.decAcceptUnesc 0x7E#8).wellFormed = true ∧
    (Instr.decAcceptDataInit 0x80#8).wellFormed = true ∧ (Instr.decAcceptCorrupt 0x7F#8 0x7F#8).wellFormed = true := by
  decide

/-! ### Decoding: words written out bit by bit from R60 and R61; the operand byte first, the state byte second -/

theorem test_decode_enc :
    decodeBytes .enc [] = .ok .encNextEnd ∧
    decodeBytes .enc [0b01111101#8] = .ok .encNextStuffEsc ∧
    decodeBytes .enc [0b01111110#8] = .ok .encNextStuffFlag ∧
    decodeBytes .enc [0b01111111#8] = .ok .encNextStuffAbort ∧
    decodeBytes .enc [0b01111100#8] = .ok (.encNextLit 0x7C#8) := by
  refine ⟨?_, ?_, ?_, ?_, ?_⟩ <;> rfl

theorem test_decode_dec_guard_and_escape :
    decodeBytes .dec [0b01000001#8] = .ok (.decAcceptExh 0x41#8) ∧
    decodeBytes .dec [0b01111101#8, 0b01111101#8] = .ok .decAcceptUnescEsc ∧
    decodeBytes .dec [0b01111111#8, 0b01111101#8] = .ok .decAcceptUnescAbort ∧
    decodeBytes .dec [0b01011110#8, 0b01111101#8] = .ok (.decAcceptUnesc 0x5E#8) := by
  refine ⟨?_, ?_, ?_, ?_⟩ <;> rfl

theorem test_decode_dec_init :
    decodeBytes .dec [0b01111110#8, 0b00000000#8] = .ok .decAcceptSkip ∧
    decodeBytes .dec [0b01111101#8, 0b00000000#8] = .ok .decAcceptEscinInit ∧
    decodeBytes .dec [0b01111111#8, 0b00000000#8] = .ok .decAcceptSabortInit ∧
    decodeBytes .dec [0b01000001#8, 0b00000000#8] = .ok (.decAcceptDataInit 0x41#8) := by
  refine ⟨?_, ?_, ?_, ?_⟩ <;> rfl

theorem test_decode_dec_ready :
    decodeBytes .dec [0b01111101#8, 0b01111110#8] = .ok .decAcceptEscinReady ∧
    decodeBytes .dec [0b01111110#8, 0b01111110#8] = .ok .decAcceptDone ∧
    decodeBytes .dec [0b01111111#8, 0b01111110#8] = .ok .decAcceptSabortReady ∧
    decodeBytes .dec [0b00000000#8, 0b01111110#8] = .ok (.decAcceptDataReady 0x00#8) ∧
    decodeBytes .dec [0b01111110#8, 0b01000001#8] = .ok (.decAcceptCorrupt 0x41#8 0x7E#8) := by
  refine ⟨?_, ?_, ?_, ?_, ?_⟩ <;> rfl

/-- R68: the host operations are requested by name and have no binary form. -/
theorem test_decode_host :
    decode (.host (.encLoad 2 5)) = .encLoad 2 5 ∧ decode (.host (.decLoad 0 6)) = .decLoad 0 6 ∧
    decode (.host (.txWrite 1 0x7E#8)) = .txWrite 1 0x7E#8 ∧ decode (.host (.txRead 1)) = .txRead 1 ∧
    decode (.host (.rxWrite 2 0x00#8)) = .rxWrite 2 0x00#8 ∧ decode (.host (.rxRead 2)) = .rxRead 2 ∧
    decode (.host .encCur) = .encCur ∧ decode (.host .decCur) = .decCur ∧ decode (.host .decSeed) = .decSeed ∧
    decode (.host (.txFrame 0 [0x01#8])) = .txFrame 0 [0x01#8] ∧ decode (.host (.rxOpen 3 5)) = .rxOpen 3 5 ∧
    decode (.host .reset) = .reset := by
  decide

/-- What the byte decoder rejects, by name. -/
theorem test_decode_rejects :
    decodeBytes .host [0x00#8] = .error .noBinaryForm ∧ decodeBytes .dec [] = .error .missingVal ∧
    decodeBytes .enc [0x00#8, 0x00#8] = .error .tooManyBytes ∧
    decodeBytes .dec [0x00#8, 0x00#8, 0x00#8] = .error .tooManyBytes := by
  refine ⟨?_, ?_, ?_, ?_⟩ <;> rfl

/-- The table's words: the state in bits 15 to 8, the operand in bits 7 to 0. -/
theorem test_table_words :
    decodeTableWord 8 0x7E = some .encNextStuffFlag ∧ decodeTableWord 16 0x7D7F = some .decAcceptUnescAbort ∧
    decodeTableWord 16 0x007E = some .decAcceptSkip ∧ decodeTableWord 16 0x7E00 = some (.decAcceptDataReady 0x00#8) ∧
    decodeTableWord 24 0x000000 = none := by
  decide

/-! ### Placing a word where the next step runs it -/

theorem test_fetch_enc_stuff : ∃ t, step (State.reset.withFetchWord 8 0x7E) = .next t ∧
    t.txBytes = [0x7D#8] ∧ t.txBuf = [(0, 0x5E#8)] ∧ t.requests = [] := ⟨_, rfl, rfl, rfl, rfl⟩

theorem test_fetch_dec_data : ∃ t, step (State.reset.withFetchWord 16 0x0041) = .next t ∧
    t.decResults = [.pending] ∧ t.rxBuf = [(0, 0x41#8), (1, 0x7E#8)] ∧ t.decCur = 1 := ⟨_, rfl, rfl, rfl, rfl⟩

/-- R26: the reset state has nothing requested, and its first step is idle. -/
theorem test_reset_idles : step State.reset = .next State.reset := rfl

/-! ### ENC.NEXT: the single steps of 95_test_vectors.md section 2 -/

theorem test_enc_end_after_reset : encLine (encBlock 0 0 []) 0x7E#8 0 [] = true := by decide
theorem test_enc_end_after_frame :
    encLine (encBlock 3 3 [0x01#8, 0x5E#8, 0x02#8]) 0x7E#8 3 [0x01#8, 0x5E#8, 0x02#8] = true := by decide
theorem test_enc_stuff_esc : encLine (encBlock 0 1 [0x7D#8]) 0x7D#8 0 [0x5D#8] = true := by decide
theorem test_enc_stuff_flag :
    encLine (encBlock 1 3 [0x01#8, 0x7E#8, 0x02#8]) 0x7D#8 1 [0x01#8, 0x5E#8, 0x02#8] = true := by decide
theorem test_enc_stuff_abort_last :
    encLine (encBlock 2 3 [0x01#8, 0x5E#8, 0x7F#8]) 0x7D#8 2 [0x01#8, 0x5E#8, 0x5F#8] = true := by decide
theorem test_enc_lit_rewritten :
    encLine (encBlock 1 3 [0x01#8, 0x5E#8, 0x02#8]) 0x5E#8 2 [0x01#8, 0x5E#8, 0x02#8] = true := by decide
theorem test_enc_lit_top : encLine (encBlock 0 1 [0xFF#8]) 0xFF#8 1 [0xFF#8] = true := by decide

/-! ### DEC.ACCEPT: lines of 95_test_vectors.md section 3 -/

theorem test_dec_exh_flag :
    decLine (decBlock .unstuff 2 2 [0x01#8, 0x02#8]) 0x7E#8 .abort 2 [0x01#8, 0x02#8] = true := by decide
theorem test_dec_exh_after_reset : decLine (decBlock .unstuff 0 0 []) 0x41#8 .abort 0 [] = true := by decide
theorem test_dec_unesc_esc : decLine (roomy 0x7D#8) 0x7D#8 .pending 2 [0xAA#8, 0x5D#8, 0x7E#8, 0xCC#8] = true := by decide
theorem test_dec_unesc_esc_policy_abort :
    decLine (decBlock .abort 1 4 [0xAA#8, 0x7D#8, 0xBB#8, 0xCC#8]) 0x7D#8 .abort 1 [0xAA#8, 0x7D#8, 0xBB#8, 0xCC#8] =
      true := by decide
theorem test_dec_unesc_abort : decLine (roomy 0x7D#8) 0x7F#8 .pending 2 [0xAA#8, 0x5F#8, 0x7E#8, 0xCC#8] = true := by decide
theorem test_dec_unesc_abort_policy_abort :
    decLine (decBlock .abort 1 4 [0xAA#8, 0x7D#8, 0xBB#8, 0xCC#8]) 0x7F#8 .abort 1 [0xAA#8, 0x7D#8, 0xBB#8, 0xCC#8] =
      true := by decide
theorem test_dec_unesc_flag : decLine (roomy 0x7D#8) 0x7E#8 .pending 2 [0xAA#8, 0x5E#8, 0x7E#8, 0xCC#8] = true := by decide
theorem test_dec_unesc_full : decLine (tight 0x7D#8) 0x20#8 .abort 2 [0xAA#8, 0x00#8] = true := by decide
theorem test_dec_skip : decLine (roomy 0x00#8) 0x7E#8 .pending 1 [0xAA#8, 0x00#8, 0xBB#8, 0xCC#8] = true := by decide
theorem test_dec_escin_init : decLine (roomy 0x00#8) 0x7D#8 .pending 1 [0xAA#8, 0x7D#8, 0xBB#8, 0xCC#8] = true := by decide
theorem test_dec_escin_ready : decLine (roomy 0x7E#8) 0x7D#8 .pending 1 [0xAA#8, 0x7D#8, 0xBB#8, 0xCC#8] = true := by decide
theorem test_dec_done : decLine (roomy 0x7E#8) 0x7E#8 .frameComplete 1 [0xAA#8, 0x7E#8, 0xBB#8, 0xCC#8] = true := by decide
theorem test_dec_done_full : decLine (tight 0x7E#8) 0x7E#8 .frameComplete 1 [0xAA#8, 0x7E#8] = true := by decide
theorem test_dec_sabort_init : decLine (tight 0x00#8) 0x7F#8 .abort 1 [0xAA#8, 0x7F#8] = true := by decide
theorem test_dec_sabort_ready : decLine (roomy 0x7E#8) 0x7F#8 .abort 1 [0xAA#8, 0x7F#8, 0xBB#8, 0xCC#8] = true := by decide
theorem test_dec_data_init : decLine (roomy 0x00#8) 0x00#8 .pending 2 [0xAA#8, 0x00#8, 0x7E#8, 0xCC#8] = true := by decide
theorem test_dec_data_init_full : decLine (tight 0x00#8) 0x41#8 .abort 2 [0xAA#8, 0x41#8] = true := by decide
theorem test_dec_data_ready : decLine (roomy 0x7E#8) 0x5E#8 .pending 2 [0xAA#8, 0x5E#8, 0x7E#8, 0xCC#8] = true := by decide
theorem test_dec_data_ready_full : decLine (tight 0x7E#8) 0x41#8 .abort 2 [0xAA#8, 0x41#8] = true := by decide
theorem test_dec_corrupt_abort : decLine (roomy 0x41#8) 0x7F#8 .abort 1 [0xAA#8, 0x41#8, 0xBB#8, 0xCC#8] = true := by decide
theorem test_dec_corrupt_after_sabort :
    decLine (roomy 0x7F#8) 0x7E#8 .abort 1 [0xAA#8, 0x7F#8, 0xBB#8, 0xCC#8] = true := by decide

/-! ### Host operations: the lines of 95_test_vectors.md section 4 -/

theorem test_enc_load : stepGives hostBlock (.host (.encLoad 2 5))
    (fun t => t.encCur == 2 && t.encEnd == 5 && t.txBuf == hostBlock.txBuf) = true := by decide
theorem test_enc_load_refused :
    refusedAs (.encLoad 5 2) hostBlock .loadOutOfRange = true ∧
    refusedAs (.encLoad 0 9) hostBlock .loadOutOfRange = true := by decide
theorem test_dec_load_does_not_seed : stepGives hostBlock (.host (.decLoad 0 6))
    (fun t => t.decCur == 0 && t.decEnd == 6 && t.rxBuf == hostBlock.rxBuf && dview t == .corrupt) = true := by decide
theorem test_dec_load_refused : refusedAs (.decLoad 4 9) hostBlock .loadOutOfRange = true := by decide
theorem test_tx_write : stepGives (encBlock 0 0 [0x01#8, 0x02#8]) (.host (.txWrite 1 0x7E#8))
    (fun t => t.txBuf == [(0, 0x01#8), (1, 0x7E#8)]) = true := by decide
theorem test_tx_write_refused : refusedAs (.txWrite 8 0x7E#8) hostBlock .addressOutOfRange = true := by decide
theorem test_tx_read : stepGives (encBlock 0 0 [0x01#8, 0x02#8]) (.host (.txRead 1))
    (fun t => t.readBacks == [.cell 0x02#8]) = true := by decide
theorem test_tx_read_refused : refusedAs (.txRead 8) hostBlock .addressOutOfRange = true := by decide
theorem test_rx_write : stepGives (roomy 0x41#8) (.host (.rxWrite 1 0x00#8))
    (fun t => t.rxBuf == cells 0 [0xAA#8, 0x00#8, 0xBB#8, 0xCC#8] && dview t == .init) = true := by decide
theorem test_rx_write_refused : refusedAs (.rxWrite 8 0x00#8) hostBlock .addressOutOfRange = true := by decide
/-- 95_test_vectors.md P3, step 5: the sender's abort is seen in the cell at the cursor. -/
theorem test_rx_read : stepGives (roomy 0x7F#8) (.host (.rxRead 1))
    (fun t => t.readBacks == [.cell 0x7F#8]) = true := by decide
theorem test_rx_read_refused : refusedAs (.rxRead 8) hostBlock .addressOutOfRange = true := by decide
theorem test_enc_cur : stepGives (encBlock 2 3 [0x01#8, 0x02#8, 0x03#8]) (.host .encCur)
    (fun t => t.readBacks == [.cursor 2] && t.encCur == 2) = true := by decide
theorem test_dec_cur : stepGives hostBlock (.host .decCur)
    (fun t => t.readBacks == [.cursor 6] && t.decCur == 6) = true := by decide
theorem test_dec_seed : stepGives (decBlock .unstuff 0 2 [0x31#8, 0x32#8]) (.host .decSeed)
    (fun t => t.rxBuf == [(0, 0x00#8), (1, 0x32#8)] && dview t == .init) = true := by decide
theorem test_dec_seed_refused : refusedAs .decSeed hostBlock .noCellToSeed = true := by decide
theorem test_tx_frame : stepGives (encBlock 0 0 [0x11#8, 0x12#8, 0x13#8, 0x14#8]) (.host (.txFrame 1 [0x7E#8, 0x02#8]))
    (fun t => t.encCur == 1 && t.encEnd == 3 && t.txBuf == cells 0 [0x11#8, 0x7E#8, 0x02#8, 0x14#8]) = true := by decide
theorem test_tx_frame_refused :
    refusedAs (.txFrame 6 [0x01#8, 0x02#8, 0x03#8]) hostBlock .addressOutOfRange = true := by decide
/-- 95_test_vectors.md P3, step 7: the window is rewound over stale bytes and seeded. -/
theorem test_rx_open : stepGives (decBlock .unstuff 2 3 [0x11#8, 0x22#8, 0x7F#8]) (.host (.rxOpen 0 3))
    (fun t => t.decCur == 0 && t.decEnd == 3 && t.rxBuf == cells 0 [0x00#8, 0x22#8, 0x7F#8]) = true := by decide
theorem test_rx_open_refused : refusedAs (.rxOpen 3 3) hostBlock .noCellToSeed = true := by decide
theorem test_reset_event : stepGives (roomy 0x7E#8) (.host .reset)
    (fun t => t.decCur == 0 && t.decEnd == 0 && t.rxBuf == [] && t.resets == 1) = true := by decide

/-- A case that the state does not select is refused (log entry 8). -/
theorem test_unselected_case_refused :
    exec .decAcceptSkip (roomy 0x7E#8) = .refused .caseNotSelected ∧
    exec .encNextEnd (encBlock 0 1 [0x41#8]) = .refused .caseNotSelected := ⟨rfl, rfl⟩

/-- A state that no load makes, with the cursor at the bound's far side: the access has no cell (log entry 9). -/
theorem test_cell_that_does_not_exist :
    exec .encNextStuffEsc (encBlock 5 3 [0x01#8, 0x02#8, 0x03#8]) = .fault (.noSuchCell .tx 5) := rfl

/-! ### Frames and codes -/

/-- 95_test_vectors.md S1: the body of the document's scenario. -/
theorem test_stuff_scenario : stuff [0x01#8, 0x7E#8, 0x02#8] = [0x01#8, 0x7D#8, 0x5E#8, 0x02#8] ∧
    unstuff [0x01#8, 0x7D#8, 0x5E#8, 0x02#8] = [0x01#8, 0x7E#8, 0x02#8] := by decide

/-- R69. -/
theorem test_result_codes : resultCode .pending = 0x00#8 ∧ resultCode .frameComplete = 0x7E#8 ∧
    resultCode .abort = 0x7F#8 := by decide

/-- R154: the cursor is read first; the byte that got the `Abort` counts as the flag if it was one; else bytes are
dropped up to one (P3). -/
theorem test_resync :
    resync 0x7F#8 [0x33#8, 0x7E#8, 0x7E#8, 0x44#8] 0 6 =
      [.host .decCur, .host (.rxOpen 0 6), .decAccept 0x7E#8, .decAccept 0x44#8] ∧
    resync 0x7E#8 [0x33#8] 0 6 = [.host .decCur, .host (.rxOpen 0 6), .decAccept 0x33#8] := by decide

/-- R129, R154: no window is opened while no flag has been seen; a wire that ends in the flag opens it. -/
theorem test_resync_needs_flag :
    resync 0x7F#8 [0x33#8] 0 6 = [.host .decCur] ∧
    resync 0x7F#8 [0x33#8, 0x7E#8] 0 6 = [.host .decCur, .host (.rxOpen 0 6)] := by decide

/-- R95, 95_test_vectors.md P3: the frame of two cells, taken after the cursor has been read. -/
theorem test_take_frame : takeFrame 0 (decBlock .unstuff 2 3 [0x44#8, 0x7D#8, 0x7E#8]) =
    [.host .decCur, .host (.rxRead 0), .host (.rxRead 1)] := by decide

/-! ### Witnesses: states and operands that meet the hypotheses of a statement, all of them together -/

/-- Requests waiting in a block. -/
def waiting (s : State) (rs : List Request) : State := { s with requests := rs }

/-- Both units loaded. -/
def fullBlock : State := block .unstuff 0 2 [0x7E#8, 0x41#8] 0 3 [0x00#8, 0x22#8, 0x33#8]

/-- The decoder under policy `ABORT`, an escape open. -/
def strictEscape : State := decBlock .abort 1 4 [0xAA#8, 0x7D#8, 0xBB#8, 0xCC#8]

theorem witness_DecodeEncodeAgree :
    ((Instr.decAcceptUnesc 0x7E#8).wellFormed = true ∧
      encodeBytes (.decAcceptUnesc 0x7E#8) = some [0x7E#8, 0x7D#8]) ∧
    (Instr.encNextLit 0x80#8).wellFormed = true ∧ encodeBytes (.encNextLit 0x80#8) = some [0x80#8] := by decide

theorem witness_EncNextRowOrder :
    (encBlock 1 1 [0x41#8]).encCur = (encBlock 1 1 [0x41#8]).encEnd ∧
    ∀ b ∈ [0x7C#8, 0x7D#8, 0x7E#8, 0x7F#8, 0x80#8],
      (encBlock 0 1 [b]).encCur ≠ (encBlock 0 1 [b]).encEnd ∧
      (encBlock 0 1 [b]).memRead .tx (encBlock 0 1 [b]).encCur = some b := by decide

theorem witness_DecAcceptTestOrder :
    (decBlock .unstuff 1 1 [0x41#8]).decCur = (decBlock .unstuff 1 1 [0x41#8]).decEnd ∧
    ∀ st ∈ [0x00#8, 0x01#8, 0x7C#8, 0x7D#8, 0x7E#8, 0x7F#8, 0xFF#8],
      (roomy st).decCur ≠ (roomy st).decEnd ∧ (roomy st).memRead .rx (roomy st).decCur = some st := by decide

theorem witness_StepRunsDecodedInstruction :
    let s := waiting (roomy 0x00#8) [.decAccept 0x7E#8, .encNext]
    s.requests = .decAccept 0x7E#8 :: [.encNext] ∧
      select { s with requests := [.encNext] } (.decAccept 0x7E#8) = .ok (.dec (some 0x00#8) 0x7E#8) ∧
      decode (.dec (some 0x00#8) 0x7E#8) = .decAcceptSkip ∧ Instr.decAcceptSkip.wellFormed = true :=
  ⟨rfl, rfl, rfl, rfl⟩

theorem witness_IdleStepChangesNothing : State.reset.requests = [] := rfl

theorem witness_StepKeepsInvariant :
    (waiting (roomy 0x7E#8) [.decAccept 0x41#8]).Inv ∧
    ∃ t, step (waiting (roomy 0x7E#8) [.decAccept 0x41#8]) = .next t := ⟨by decide, _, rfl⟩

theorem witness_UnitStepNeverStops :
    (waiting fullBlock [.encNext]).Inv ∧ (waiting fullBlock [.encNext]).requests = [.encNext] ∧
    (waiting fullBlock [.decAccept 0x7F#8]).Inv ∧
    (waiting fullBlock [.decAccept 0x7F#8]).requests = [.decAccept 0x7F#8] := by decide

theorem witness_EncEndReturnsFlag :
    (encBlock 3 3 [0x01#8, 0x5E#8, 0x02#8]).encCur = (encBlock 3 3 [0x01#8, 0x5E#8, 0x02#8]).encEnd := rfl

theorem witness_EncStuffRewritesInPlace : ∀ b ∈ [0x7D#8, 0x7E#8, 0x7F#8],
    (encBlock 0 1 [b]).encCur ≠ (encBlock 0 1 [b]).encEnd ∧
    (encBlock 0 1 [b]).memRead .tx (encBlock 0 1 [b]).encCur = some b := by decide

theorem witness_EncLitReturnsByte : ∀ b ∈ [0x00#8, 0x7C#8, 0x80#8, 0xFF#8],
    (encBlock 0 1 [b]).encCur ≠ (encBlock 0 1 [b]).encEnd ∧
    (encBlock 0 1 [b]).memRead .tx (encBlock 0 1 [b]).encCur = some b ∧
    b ≠ 0x7D#8 ∧ b ≠ 0x7E#8 ∧ b ≠ 0x7F#8 := by decide

theorem witness_EncCasesFrame :
    (∃ t, exec .encNextEnd (encBlock 1 1 [0x41#8]) = .next t) ∧
    (∃ t, exec .encNextStuffEsc (encBlock 0 1 [0x7D#8]) = .next t) ∧
    (∃ t, exec .encNextStuffFlag (encBlock 0 1 [0x7E#8]) = .next t) ∧
    (∃ t, exec .encNextStuffAbort (encBlock 0 1 [0x7F#8]) = .next t) ∧
    (∃ t, exec (.encNextLit 0x7C#8) (encBlock 0 1 [0x7C#8]) = .next t) :=
  ⟨⟨_, rfl⟩, ⟨_, rfl⟩, ⟨_, rfl⟩, ⟨_, rfl⟩, ⟨_, rfl⟩⟩

theorem witness_EncReturnsOnlyWireBytes :
    (∃ t, perform .encNext (encBlock 1 1 [0x41#8]) = .next t ∧ t.txBytes = [0x7E#8]) ∧
    (∃ t, perform .encNext (encBlock 0 1 [0x7F#8]) = .next t ∧ t.txBytes = [0x7D#8]) ∧
    (∃ t, perform .encNext (encBlock 0 1 [0x80#8]) = .next t ∧ t.txBytes = [0x80#8]) :=
  ⟨⟨_, rfl, rfl⟩, ⟨_, rfl, rfl⟩, ⟨_, rfl, rfl⟩⟩

theorem witness_EncoderSendsStuffedFrame :
    2 + [0x7E#8, 0x02#8].length ≤ (encBlock 0 0 (List.replicate 4 0x00#8)).config.txSize ∧
    4 + ([] : List Byte).length ≤ (encBlock 0 0 (List.replicate 4 0x00#8)).config.txSize := by decide

/-- 95_test_vectors.md section 2, second pass. -/
theorem witness_SecondPassSendsRewrittenBytes :
    0 + [0x01#8, 0x7E#8, 0x02#8].length ≤ (encBlock 3 3 [0x01#8, 0x5E#8, 0x02#8]).config.txSize ∧
    holds (encBlock 3 3 [0x01#8, 0x5E#8, 0x02#8]) .tx 0 (mutated [0x01#8, 0x7E#8, 0x02#8]) := by
  refine ⟨by decide, fun i b h => ?_⟩
  match i, h with
  | 0, h => cases h; rfl
  | 1, h => cases h; rfl
  | 2, h => cases h; rfl
  | n + 3, h => simp [mutated] at h

theorem witness_DecExhReturnsAbort :
    (decBlock .unstuff 2 2 [0x01#8, 0x02#8]).decCur = (decBlock .unstuff 2 2 [0x01#8, 0x02#8]).decEnd := rfl

theorem witness_DecUnescStoresByte : ∀ s ∈ [roomy 0x7D#8, tight 0x7D#8, strictEscape],
    s.WindowsOk ∧ s.decCur ≠ s.decEnd ∧ s.memRead .rx s.decCur = some 0x7D#8 := by decide

theorem witness_DecSkipIgnoresFlag :
    (roomy 0x00#8).decCur ≠ (roomy 0x00#8).decEnd ∧ (roomy 0x00#8).memRead .rx (roomy 0x00#8).decCur = some 0x00#8 := by
  decide

theorem witness_DecEscinWritesMarker : ∀ st ∈ [0x00#8, 0x7E#8],
    (tight st).decCur ≠ (tight st).decEnd ∧ (tight st).memRead .rx (tight st).decCur = some st := by decide

theorem witness_DecDoneCompletesFrame :
    (tight 0x7E#8).decCur ≠ (tight 0x7E#8).decEnd ∧ (tight 0x7E#8).memRead .rx (tight 0x7E#8).decCur = some 0x7E#8 := by
  decide

theorem witness_DecSabortWritesAbort : ∀ st ∈ [0x00#8, 0x7E#8],
    (roomy st).decCur ≠ (roomy st).decEnd ∧ (roomy st).memRead .rx (roomy st).decCur = some st := by decide

theorem witness_DecDataStoresByte : ∀ st ∈ [0x00#8, 0x7E#8], ∀ s ∈ [roomy st, tight st], ∀ val ∈ [0x7C#8, 0x80#8],
    s.WindowsOk ∧ s.decCur ≠ s.decEnd ∧ s.memRead .rx s.decCur = some st ∧
    val ≠ 0x7D#8 ∧ val ≠ 0x7E#8 ∧ val ≠ 0x7F#8 := by decide

theorem witness_DecCorruptReturnsAbort : ∀ st ∈ [0x01#8, 0x7C#8, 0x7F#8, 0xFF#8],
    (roomy st).decCur ≠ (roomy st).decEnd ∧ (roomy st).memRead .rx (roomy st).decCur = some st ∧
    st ≠ 0x00#8 ∧ st ≠ 0x7E#8 ∧ st ≠ 0x7D#8 := by decide

theorem witness_DecCasesFrame :
    (∃ t, exec (.decAcceptExh 0x41#8) (decBlock .unstuff 1 1 [0x41#8]) = .next t) ∧
    (∃ t, exec .decAcceptUnescEsc (roomy 0x7D#8) = .next t) ∧
    (∃ t, exec .decAcceptUnescAbort strictEscape = .next t) ∧
    (∃ t, exec (.decAcceptUnesc 0x5E#8) (tight 0x7D#8) = .next t) ∧
    (∃ t, exec .decAcceptSkip (roomy 0x00#8) = .next t) ∧
    (∃ t, exec .decAcceptEscinInit (roomy 0x00#8) = .next t) ∧
    (∃ t, exec .decAcceptEscinReady (roomy 0x7E#8) = .next t) ∧
    (∃ t, exec .decAcceptDone (roomy 0x7E#8) = .next t) ∧
    (∃ t, exec .decAcceptSabortInit (roomy 0x00#8) = .next t) ∧
    (∃ t, exec .decAcceptSabortReady (roomy 0x7E#8) = .next t) ∧
    (∃ t, exec (.decAcceptDataInit 0x41#8) (roomy 0x00#8) = .next t) ∧
    (∃ t, exec (.decAcceptDataReady 0x41#8) (tight 0x7E#8) = .next t) ∧
    (∃ t, exec (.decAcceptCorrupt 0x7F#8 0x7E#8) (roomy 0x7F#8) = .next t) :=
  ⟨⟨_, rfl⟩, ⟨_, rfl⟩, ⟨_, rfl⟩, ⟨_, rfl⟩, ⟨_, rfl⟩, ⟨_, rfl⟩, ⟨_, rfl⟩, ⟨_, rfl⟩, ⟨_, rfl⟩, ⟨_, rfl⟩, ⟨_, rfl⟩,
    ⟨_, rfl⟩, ⟨_, rfl⟩⟩

theorem witness_DecStateTable :
    ∀ s ∈ [decBlock .unstuff 1 1 [0x41#8], roomy 0x00#8, roomy 0x7E#8, tight 0x7D#8, strictEscape, roomy 0x7F#8],
      s.WindowsOk := by decide

theorem witness_DecoderNeverEntersInit :
    ∃ t, perform (.decAccept 0x7E#8) (roomy 0x00#8) = .next t ∧ dview t = .init := ⟨_, rfl, by decide⟩

theorem witness_AbortExactlyWhenCaused : (tight 0x7D#8).WindowsOk ∧ (roomy 0x7D#8).WindowsOk := by decide

/-- One state and byte for each cause of R153, and what it is. -/
def causes : List (State × Byte × AbortCause) :=
  [(decBlock .unstuff 1 1 [0x41#8], 0x7E#8, .exhaustedOnEntry), (strictEscape, 0x7D#8, .escReserved),
   (strictEscape, 0x7F#8, .escReserved), (tight 0x7D#8, 0x7D#8, .exhaustedOnAdvance),
   (tight 0x7E#8, 0x41#8, .exhaustedOnAdvance), (roomy 0x00#8, 0x7F#8, .senderAbort),
   (tight 0x7E#8, 0x7F#8, .senderAbort), (roomy 0x41#8, 0x7E#8, .corruption), (roomy 0x7F#8, 0x7F#8, .corruption)]

theorem witness_HostTellsCausesApart : ∀ c ∈ causes, c.1.WindowsOk ∧
    (match perform (.decAccept c.2.1) c.1 with | .next _ => true | _ => false) = true ∧
    abortCause c.1 c.2.1 = c.2.2 ∧ abortCause c.1 c.2.1 ≠ .none := by decide

theorem witness_AbortRepeatsUntilHostActs :
    ((tight 0x7E#8).WindowsOk ∧ (∃ t, perform (.decAccept 0x41#8) (tight 0x7E#8) = .next t) ∧
      abortCause (tight 0x7E#8) 0x41#8 ≠ .none ∧ abortCause (tight 0x7E#8) 0x41#8 ≠ .escReserved) ∧
    (strictEscape.WindowsOk ∧ (∃ t, perform (.decAccept 0x7F#8) strictEscape = .next t) ∧
      abortCause strictEscape 0x7F#8 = .escReserved) :=
  ⟨⟨by decide, ⟨_, rfl⟩, by decide, by decide⟩, by decide, ⟨_, rfl⟩, by decide⟩

theorem witness_InitAndReadyDifferOnFlagOnly :
    (tight 0x41#8).decCur ≠ (tight 0x41#8).decEnd ∧ (tight 0x41#8).decCur < (tight 0x41#8).config.rxSize ∧
    (0x7F#8 : Byte) ≠ 0x7E#8 := by decide

theorem witness_CursorLaws :
    (∃ t, perform .encNext (encBlock 0 1 [0x41#8]) = .next t ∧ t.encCur = 1) ∧
    (∃ t, perform .encNext (encBlock 1 1 [0x41#8]) = .next t ∧ t.encCur = 1) ∧
    (∃ t, perform (.decAccept 0x41#8) (tight 0x7E#8) = .next t ∧ t.decCur = 2) ∧
    (encBlock 0 1 [0x41#8]).WindowsOk ∧ (tight 0x7E#8).WindowsOk :=
  ⟨⟨_, rfl, rfl⟩, ⟨_, rfl, rfl⟩, ⟨_, rfl, rfl⟩, by decide, by decide⟩

theorem witness_UnitsCommute : fullBlock.WindowsOk := by decide

theorem witness_InstancesAreIndependent :
    let blocks := [waiting (roomy 0x7E#8) [.decAccept 0x41#8], waiting (encBlock 0 1 [0x7E#8]) [.encNext]]
    (0 : Nat) ≠ 1 ∧ (∃ b1, stepInstance 0 blocks = some (.next b1)) ∧
      ∃ b2, stepInstance 1 blocks = some (.next b2) := ⟨by decide, ⟨_, rfl⟩, ⟨_, rfl⟩⟩

theorem witness_OutputsAreNeverRead :
    (∃ t, exec (.txRead 0) fullBlock = .next t ∧ t.readBacks = [.cell 0x7E#8]) ∧
    ∃ t, exec .encNextStuffFlag fullBlock = .next t ∧ t.txBytes = [0x7D#8] := ⟨⟨_, rfl, rfl⟩, _, rfl, rfl⟩

theorem witness_AccessesStayBelowBound : (roomy 0x7E#8).WindowsOk ∧ fullBlock.WindowsOk ∧
    encAccesses fullBlock = [.read .tx 0, .write .tx 0 0x5E#8] ∧
    decAccesses 0x41#8 (roomy 0x7E#8) = [.read .rx 1, .write .rx 1 0x41#8, .write .rx 2 0x7E#8] ∧
    decAccesses 0x41#8 (tight 0x7E#8) = [.read .rx 1, .write .rx 1 0x41#8] := by decide

theorem witness_AccessListsAreComplete :
    (∃ t, perform .encNext fullBlock = .next t) ∧ ∃ t, perform (.decAccept 0x41#8) fullBlock = .next t :=
  ⟨⟨_, rfl⟩, _, rfl⟩

theorem witness_UnstuffUndoesStuff : conformingItems [0x7D#8, 0x5E#8, 0x41#8] = true ∧ conformingItems [] = true := by
  decide

/-- 95_test_vectors.md P1: the scenario, in a window that just fits. -/
theorem witness_ConformingFrameIsReceived :
    conformingBody [0x01#8, 0x7D#8, 0x5E#8, 0x02#8] = true ∧
    4 ≤ (decBlock .unstuff 0 0 (List.replicate 4 0x99#8)).config.rxSize ∧
    0 + (unstuff [0x01#8, 0x7D#8, 0x5E#8, 0x02#8]).length + 1 ≤ 4 := by decide

theorem witness_RoundTripIdentity :
    let s := block .unstuff 0 0 (List.replicate 3 0x99#8) 0 0 (List.replicate 4 0x99#8)
    1 ≤ [0x01#8, 0x7E#8, 0x02#8].length ∧ 0 + [0x01#8, 0x7E#8, 0x02#8].length ≤ s.config.txSize ∧
      4 ≤ s.config.rxSize ∧ 0 + [0x01#8, 0x7E#8, 0x02#8].length + 1 ≤ 4 := by decide

theorem witness_FlagsAreAbsorbed : dview (roomy 0x00#8) = .init := by decide

theorem witness_AbortPropagates :
    ((roomy 0x00#8).WindowsOk ∧ dview (roomy 0x00#8) = .init) ∧
    ((tight 0x7E#8).WindowsOk ∧ dview (tight 0x7E#8) = .ready) ∧
    ((tight 0x7D#8).WindowsOk ∧ dview (tight 0x7D#8) = .escPending ∧ (tight 0x7D#8).config.policy = .unstuff) ∧
    (strictEscape.WindowsOk ∧ dview strictEscape = .escPending ∧ strictEscape.config.policy = .abort) := by decide

theorem witness_EscapeCompleteness :
    0 < (encBlock 0 0 [0x99#8]).config.txSize ∧
    ∀ st ∈ [0x00#8, 0x7E#8], (decBlock .unstuff 0 2 [st, 0x99#8]).WindowsOk ∧
      (dview (decBlock .unstuff 0 2 [st, 0x99#8]) = .init ∨ dview (decBlock .unstuff 0 2 [st, 0x99#8]) = .ready) ∧
      (decBlock .unstuff 0 2 [st, 0x99#8]).decCur + 2 ≤ (decBlock .unstuff 0 2 [st, 0x99#8]).decEnd := by decide

/-- 95_test_vectors.md P4: a window as long as the frame. -/
theorem witness_ExhaustionIsDetected :
    (0 : Nat) < 3 ∧ 3 ≤ (decBlock .unstuff 0 0 (List.replicate 3 0x99#8)).config.rxSize ∧
    3 - 0 ≤ [0x0A#8, 0x7E#8, 0x0C#8].length := by decide

theorem witness_ReceiveLoopIsBounded :
    ((roomy 0x00#8).WindowsOk ∧ (dview (roomy 0x00#8) = .init → [0x41#8, 0, 0, 0, 0, 0].head? ≠ some 0x7E#8) ∧
      max 1 (2 * ((roomy 0x00#8).decEnd - (roomy 0x00#8).decCur)) ≤ [0x41#8, 0, 0, 0, 0, 0].length) ∧
    ((decBlock .unstuff 1 1 [0x41#8]).WindowsOk ∧
      max 1 (2 * ((decBlock .unstuff 1 1 [0x41#8]).decEnd - (decBlock .unstuff 1 1 [0x41#8]).decCur)) ≤
        [0x7E#8].length) := by decide

theorem witness_EncLoadSetsWindow :
    (8 ≤ 8 ∧ 8 ≤ hostBlock.config.txSize) ∧ ¬ (8 ≤ 9 ∧ 9 ≤ hostBlock.config.txSize) ∧
    ¬ (5 ≤ 2 ∧ 2 ≤ hostBlock.config.txSize) := by decide

theorem witness_DecLoadSetsWindow :
    (8 ≤ 8 ∧ 8 ≤ hostBlock.config.rxSize) ∧ ¬ (8 ≤ 9 ∧ 9 ≤ hostBlock.config.rxSize) ∧
    ¬ (5 ≤ 2 ∧ 2 ≤ hostBlock.config.rxSize) := by decide

theorem witness_TxWriteStoresByte : 7 < hostBlock.config.txSize ∧ hostBlock.config.txSize ≤ 8 := by decide

theorem witness_TxReadReturnsCell : 7 < hostBlock.config.txSize ∧ hostBlock.config.txSize ≤ 8 := by decide

theorem witness_RxWriteStoresByte : 7 < hostBlock.config.rxSize ∧ hostBlock.config.rxSize ≤ 8 := by decide

theorem witness_RxReadReturnsCell : 7 < hostBlock.config.rxSize ∧ hostBlock.config.rxSize ≤ 8 := by decide

theorem witness_DecSeedEntersInit :
    ((tight 0x41#8).WindowsOk ∧ (tight 0x41#8).decCur ≠ (tight 0x41#8).decEnd) ∧ hostBlock.decCur = hostBlock.decEnd := by
  decide

theorem witness_TxFrameWritesAndLoads :
    6 + [0x01#8, 0x02#8].length ≤ hostBlock.config.txSize ∧ 8 + ([] : List Byte).length ≤ hostBlock.config.txSize ∧
    hostBlock.config.txSize < 6 + [0x01#8, 0x02#8, 0x03#8].length ∧
    hostBlock.config.txSize < 9 + ([] : List Byte).length := by decide

theorem witness_RxOpenLoadsAndSeeds :
    (7 < 8 ∧ 8 ≤ hostBlock.config.rxSize) ∧ ¬ (8 < 8 ∧ 8 ≤ hostBlock.config.rxSize) ∧
    ¬ (8 < 9 ∧ 9 ≤ hostBlock.config.rxSize) := by decide

theorem witness_HostOperationsFrame :
    (∃ t, exec (.encLoad 0 8) hostBlock = .next t) ∧ (∃ t, exec (.decLoad 0 8) hostBlock = .next t) ∧
    (∃ t, exec (.txWrite 7 0x00#8) hostBlock = .next t) ∧ (∃ t, exec (.rxWrite 7 0x00#8) hostBlock = .next t) ∧
    (∃ t, exec (.txRead 7) hostBlock = .next t) ∧ (∃ t, exec (.rxRead 7) hostBlock = .next t) ∧
    (∃ t, exec .encCur hostBlock = .next t) ∧ (∃ t, exec .decCur hostBlock = .next t) ∧
    (∃ t, exec .decSeed (tight 0x41#8) = .next t) ∧ (∃ t, exec (.txFrame 6 [0x01#8, 0x02#8]) hostBlock = .next t) ∧
    (∃ t, exec (.rxOpen 7 8) hostBlock = .next t) ∧ (∃ t, exec .reset hostBlock = .next t) :=
  ⟨⟨_, rfl⟩, ⟨_, rfl⟩, ⟨_, rfl⟩, ⟨_, rfl⟩, ⟨_, rfl⟩, ⟨_, rfl⟩, ⟨_, rfl⟩, ⟨_, rfl⟩, ⟨_, rfl⟩, ⟨_, rfl⟩, ⟨_, rfl⟩,
    ⟨_, rfl⟩⟩

end Sys2Proof.Tests
end

section
/-! Proofs of the family 10_state.md: the cursors and the invariant (R14, R26, R29, R38), `INIT` entered only by the
host (R19), and the outputs that nothing reads (R16). -/

namespace Sys2Proof.Machine

/-! ### The invariant has two parts: the windows and the buffers -/

/-- The part of the invariant that speaks of the buffers' lists (R38). -/
def State.BuffersOk (s : State) : Prop := s.txBuf.wf = true ∧ s.rxBuf.wf = true ∧ s.CellsExist

theorem inv_iff (s : State) : s.Inv ↔ s.WindowsOk ∧ s.BuffersOk := Iff.rfl

theorem put_buffersOk {s : State} {sp : Space} {a : Nat} (v : Byte) (ha : a < s.size sp) (h : s.BuffersOk) :
    (s.put sp a v).BuffersOk := by
  obtain ⟨htx, hrx, hcells⟩ := h
  obtain ⟨htx', hrx'⟩ := put_wf sp a v htx hrx
  exact ⟨htx', hrx', put_cellsExist v ha hcells⟩

theorem put_inv {s : State} {sp : Space} {a : Nat} (v : Byte) (ha : a < s.size sp) (h : s.Inv) :
    (s.put sp a v).Inv := by
  obtain ⟨hwin, hbuf⟩ := h
  exact ⟨by simpa [State.WindowsOk] using hwin, put_buffersOk v ha hbuf⟩

/-- After reset the windows are empty and no cell is listed (R26), whatever the parameters. -/
theorem resetWith_inv (c : Config) : (State.resetWith c).Inv := by
  refine (inv_iff _).2 ⟨?windows, ?buffers⟩
  case windows => simp [State.WindowsOk]
  case buffers => simp [State.BuffersOk, State.CellsExist, Memory.wf]

/-! ### How a unit operation moves the cursors (R14) -/

/-- R14 (a), (b), (d): a cursor stays or goes on by one, the latter only where it differs from its bound; the bounds and
the parameters are not written. -/
structure CursorsMove (s t : State) : Prop where
  enc : t.encCur = s.encCur ∨ (t.encCur = s.encCur + 1 ∧ s.encCur ≠ s.encEnd)
  encEnd : t.encEnd = s.encEnd
  dec : t.decCur = s.decCur ∨ (t.decCur = s.decCur + 1 ∧ s.decCur ≠ s.decEnd)
  decEnd : t.decEnd = s.decEnd
  config : t.config = s.config

/-- R14 (e) from (a) to (d): a cursor that moves only below its bound does not pass it. -/
theorem CursorsMove.windowsOk {s t : State} (h : CursorsMove s t) (hs : s.WindowsOk) : t.WindowsOk := by
  obtain ⟨henc, hencEnd, hdec, hdecEnd, hconfig⟩ := h
  simp only [State.WindowsOk, size_tx, size_rx, hencEnd, hdecEnd, hconfig] at hs ⊢
  omega

theorem EncOutcome.cursorsMove {i : Instr} {s t : State} (h : EncOutcome i s t) : CursorsMove s t := by
  cases h with
  | sent => constructor <;> simp
  | stuffed => constructor <;> simp
  | literal _ _ _ hne => constructor <;> simp [hne]

theorem DecOutcome.cursorsMove {s t : State} (h : DecOutcome s t) : CursorsMove s t := by
  cases h with
  | result => constructor <;> simp
  | marker => constructor <;> simp
  | full _ _ hne => constructor <;> simp [hne]
  | room _ _ hne => constructor <;> simp [hne]

theorem EncOutcome.buffersOk {i : Instr} {s t : State} (h : EncOutcome i s t) (hs : s.BuffersOk) : t.BuffersOk := by
  cases h with
  | sent => exact hs
  | stuffed b _ _ _ hb => exact put_buffersOk (escapeX b) (memRead_lt hb) hs
  | literal => exact hs

theorem DecOutcome.buffersOk {s t : State} (h : DecOutcome s t) (hs : s.BuffersOk) : t.BuffersOk := by
  cases h with
  | result => exact hs
  | marker v _ hlt => exact put_buffersOk v hlt hs
  | full v hlt => exact put_buffersOk v hlt hs
  | room v hlt _ _ hlt' =>
    have hstored : (s.put .rx s.decCur v).advanceDec.BuffersOk := put_buffersOk v hlt hs
    exact put_buffersOk (sp := .rx) 0x7E#8 (by simpa using hlt') hstored

/-- What either unit operation does, of the cursors and of the buffers. -/
theorem perform_unit {s t : State} {r : Request} (hr : r = .encNext ∨ ∃ val, r = .decAccept val)
    (h : perform r s = .next t) : CursorsMove s t ∧ (s.BuffersOk → t.BuffersOk) := by
  rcases hr with rfl | ⟨val, rfl⟩
  · obtain ⟨i, hf, hi⟩ := perform_encNext_case h
    exact ⟨(enc_outcome hf hi).cursorsMove, (enc_outcome hf hi).buffersOk⟩
  · obtain ⟨i, hf, hi⟩ := perform_decAccept_case h
    exact ⟨(dec_outcome hf hi).cursorsMove, (dec_outcome hf hi).buffersOk⟩

/-! ### What keeps the invariant -/

/-- An operation keeps the invariant: when it answers a next state, that state meets it. -/
def KeepsInv (k : State → Out) : Prop := ∀ s t : State, s.Inv → k s = .next t → t.Inv

theorem keepsInv_andThen {k l : State → Out} (hk : KeepsInv k) (hl : KeepsInv l) :
    KeepsInv (fun s => andThen (k s) l) := by
  intro s t hs h
  obtain ⟨u, hu, ht⟩ := andThen_eq_next.1 h
  exact hl u t (hk s u hs hu) ht

theorem perform_unit_keepsInv {r : Request} (hr : r = .encNext ∨ ∃ val, r = .decAccept val) :
    KeepsInv (perform r) := by
  intro s t hs h
  obtain ⟨hwin, hbuf⟩ := (inv_iff s).1 hs
  obtain ⟨hmove, hkeep⟩ := perform_unit hr h
  exact (inv_iff t).2 ⟨hmove.windowsOk hwin, hkeep hbuf⟩

/-- R100: a load is refused unless `s <= e <= SIZE`. -/
theorem execEncLoad_keepsInv (a e : Nat) : KeepsInv (execEncLoad a e) := by
  intro s t hs h
  obtain ⟨⟨_, _, hdec⟩, hbuf⟩ := hs
  unfold execEncLoad at h
  split at h
  · next hrange =>
    cases h
    exact ⟨⟨hrange.1, hrange.2, hdec⟩, hbuf⟩
  · cases h

/-- R101: likewise for the decoder. -/
theorem execDecLoad_keepsInv (a e : Nat) : KeepsInv (execDecLoad a e) := by
  intro s t hs h
  obtain ⟨⟨hcur, hend, _⟩, hbuf⟩ := hs
  unfold execDecLoad at h
  split at h
  · next hrange =>
    cases h
    exact ⟨⟨hcur, hend, hrange⟩, hbuf⟩
  · cases h

theorem hostWrite_keepsInv (sp : Space) (a : Nat) (v : Byte) : KeepsInv (hostWrite sp a v) := by
  intro s t hs h
  rw [hostWrite_eq] at h
  split at h
  · next ha =>
    cases h
    exact put_inv v ha hs
  · cases h

theorem hostRead_keepsInv (sp : Space) (a : Nat) : KeepsInv (hostRead sp a) := by
  intro s t hs h
  obtain ⟨b, _, rfl⟩ := hostRead_next h
  exact hs

theorem execDecSeed_keepsInv : KeepsInv execDecSeed := by
  intro s t hs h
  unfold execDecSeed at h
  split at h
  · cases h
  · exact hostWrite_keepsInv _ _ _ s t hs h

theorem writeFrame_keepsInv (a : Nat) (bytes : List Byte) : KeepsInv (writeFrame a bytes) := by
  induction bytes generalizing a with
  | nil =>
    intro s t hs h
    cases h
    exact hs
  | cons b bytes ih => exact keepsInv_andThen (hostWrite_keepsInv .tx a b) (ih (a + 1))

theorem execReset_keepsInv : KeepsInv execReset := by
  intro s t _ h
  cases h
  exact resetWith_inv s.config

theorem perform_host_keepsInv (op : HostOp) : KeepsInv (perform (.host op)) := by
  show KeepsInv (exec (decodeHost op))
  cases op with
  | encLoad a e => exact execEncLoad_keepsInv a e
  | decLoad a e => exact execDecLoad_keepsInv a e
  | txWrite a v => exact hostWrite_keepsInv .tx a v
  | txRead a => exact hostRead_keepsInv .tx a
  | rxWrite a v => exact hostWrite_keepsInv .rx a v
  | rxRead a => exact hostRead_keepsInv .rx a
  | encCur | decCur =>
    intro s t hs h
    cases h
    exact hs
  | decSeed => exact execDecSeed_keepsInv
  | txFrame a bytes =>
    exact keepsInv_andThen (writeFrame_keepsInv a bytes) (execEncLoad_keepsInv a (a + bytes.length))
  | rxOpen a e => exact keepsInv_andThen (execDecLoad_keepsInv a e) execDecSeed_keepsInv
  | reset => exact execReset_keepsInv

theorem perform_keepsInv (r : Request) : KeepsInv (perform r) := by
  cases r with
  | encNext => exact perform_unit_keepsInv (Or.inl rfl)
  | decAccept val => exact perform_unit_keepsInv (Or.inr ⟨val, rfl⟩)
  | host op => exact perform_host_keepsInv op

/-- Settles O9: an idle step changes nothing; any other performs a request, which keeps the invariant. -/
theorem stepKeepsInvariant : Obligations.StepKeepsInvariant := by
  unfold Obligations.StepKeepsInvariant
  intro s t hs h
  unfold step performNext at h
  split at h
  · cases h
    exact hs
  · next r rest _ => exact perform_keepsInv r { s with requests := rest } t hs h

/-- Settles O35, from what either unit operation does of the cursors. -/
theorem cursorLaws : Obligations.CursorLaws := by
  unfold Obligations.CursorLaws
  intro s t r hr h
  obtain ⟨hmove, _⟩ := perform_unit hr h
  exact ⟨hmove.enc, hmove.encEnd, hmove.dec, hmove.decEnd, hmove.windowsOk⟩

/-- Settles O10: the base case of O9, for all parameters. -/
theorem resetMeetsInvariant : Obligations.ResetMeetsInvariant := by
  unfold Obligations.ResetMeetsInvariant
  exact ⟨resetWith_inv, resetWith_inv Config.standard⟩

/-! ### `INIT` is entered only by the host (R19) -/

theorem dview_eq_init {s : State} :
    dview s = .init ↔ s.decCur ≠ s.decEnd ∧ s.memRead .rx s.decCur = some 0x00#8 := by
  unfold dview
  by_cases hguard : s.decCur = s.decEnd
  · simp [hguard]
  · by_cases hinit : s.memRead .rx s.decCur = some 0x00#8
    · simp [hguard, hinit]
    · rw [if_neg hguard, if_neg hinit]
      simp only [hinit, and_false, iff_false]
      split_ifs <;> decide

/-- A returned result is no part of what the decoder's view is read from (R16, R20). -/
@[simp] theorem dview_decReturn (r : Result) (s : State) : dview (decReturn r s) = dview s := by
  simp [dview]

/-- A marker that is not the seed does not put the decoder into `INIT`. -/
theorem dview_put_ne_init {s : State} {v : Byte} (hlt : s.decCur < s.size .rx) (hv : v ≠ 0x00#8) :
    dview (s.put .rx s.decCur v) ≠ .init := by
  intro hinit
  obtain ⟨_, hcell⟩ := dview_eq_init.1 hinit
  rw [put_decCur, put_memRead_self s v hlt] at hcell
  exact hv (Option.some.inj hcell)

/-- After a data byte the decoder is at its bound or stands on a fresh `FLAG` (R89). -/
theorem storeAndAdvance_dview_ne_init {s t : State} {v : Byte} (h : storeAndAdvance v s = .next t) :
    dview t ≠ .init := by
  obtain ⟨_, ⟨hfull, rfl⟩ | ⟨_, hlt, rfl⟩⟩ := storeAndAdvance_next h
  · simp [dview_eq_init, hfull]
  · rw [dview_decReturn]
    exact dview_put_ne_init (s := (s.put .rx s.decCur v).advanceDec) (by simpa using hlt) (by decide)

/-- An operation that answers a next state was at the guard or had a state register to read (R61). -/
theorem perform_decAccept_reads {s t : State} {val : Byte} (h : perform (.decAccept val) s = .next t) :
    s.decCur = s.decEnd ∨ (s.decCur ≠ s.decEnd ∧ ∃ st, s.memRead .rx s.decCur = some st) := by
  unfold perform at h
  cases hs : decState s with
  | error f => simp [select, hs, Except.map] at h
  | ok c =>
    rcases cellAtCursor_eq_ok.1 hs with ⟨hguard, _⟩ | ⟨hne, st, hst, _⟩
    · exact Or.inl hguard
    · exact Or.inr ⟨hne, st, hst⟩

/-- What `DEC.ACCEPT` does, by what it writes: nothing but its result (from `INIT` in case SKIP alone), a marker at the
cursor, or a data byte. Unlike `DecOutcome` it tells which markers are written and from which views nothing is. -/
inductive AcceptEffect (s : State) : State → Prop where
  | skipped (hinit : dview s = .init) : AcceptEffect s (decReturn .pending s)
  | resultOnly (r : Result) (hinit : dview s ≠ .init) : AcceptEffect s (decReturn r s)
  | marked (v : Byte) (r : Result) (hv : v = 0x7D#8 ∨ v = 0x7F#8) (hlt : s.decCur < s.size .rx) :
      AcceptEffect s (decReturn r (s.put .rx s.decCur v))
  | stored {t : State} (v : Byte) (h : storeAndAdvance v s = .next t) : AcceptEffect s t

/-- R84 to R87: the effects from `INIT` and from `READY`, but for `FLAG`. -/
theorem acceptEffect_of_ready {s t : State} {st val : Byte} (hne : s.decCur ≠ s.decEnd)
    (hst : s.memRead .rx s.decCur = some st) (hl : st = 0x00#8 ∨ st = 0x7E#8) (hval : val ≠ 0x7E#8)
    (h : perform (.decAccept val) s = .next t) : AcceptEffect s t := by
  have hlt := memRead_lt hst
  by_cases hesc : val = 0x7D#8
  · subst hesc
    rw [perform_decAccept_escin hne hst hl] at h
    cases h
    exact .marked _ _ (Or.inl rfl) hlt
  by_cases habort : val = 0x7F#8
  · subst habort
    rw [perform_decAccept_sabort hne hst hl] at h
    cases h
    exact .marked _ _ (Or.inr rfl) hlt
  · rw [perform_decAccept_data hne hst hl ((not_reserved_iff val).2 ⟨hesc, hval, habort⟩)] at h
    exact .stored val h

/-- The tests of R80, in their order. -/
theorem perform_decAccept_effect {s t : State} {val : Byte} (h : perform (.decAccept val) s = .next t) :
    AcceptEffect s t := by
  rcases perform_decAccept_reads h with hguard | ⟨hne, st, hst⟩
  · rw [perform_decAccept_exh val hguard] at h
    cases h
    exact .resultOnly _ (by simp [dview_eq_init, hguard])
  by_cases hesc : st = 0x7D#8
  · subst hesc
    rw [perform_decAccept_unesc val hne hst] at h
    split at h
    · cases h
      exact .resultOnly _ (by simp [dview_eq_init, hst])
    · exact .stored _ h
  by_cases hinit : st = 0x00#8
  · subst hinit
    by_cases hflag : val = 0x7E#8
    · subst hflag
      rw [perform_decAccept_skip hne hst] at h
      cases h
      exact .skipped (dview_eq_init.2 ⟨hne, hst⟩)
    · exact acceptEffect_of_ready hne hst (Or.inl rfl) hflag h
  by_cases hready : st = 0x7E#8
  · subst hready
    by_cases hflag : val = 0x7E#8
    · subst hflag
      rw [perform_decAccept_done hne hst] at h
      cases h
      exact .resultOnly _ (by simp [dview_eq_init, hst])
    · exact acceptEffect_of_ready hne hst (Or.inr rfl) hflag h
  · have hillegal : legalState st = false := by
      rw [← Bool.not_eq_true, legalState_iff]
      tauto
    rw [perform_decAccept_corrupt val hne hst hillegal] at h
    cases h
    exact .resultOnly _ (by simp [dview_eq_init, hst, hinit])

/-- Settles O30: no marker is the seed, and a stored byte is followed by the bound or by `FLAG`; so only a decoder that
puts out nothing but its result can be in `INIT`, and it was in `INIT` before. -/
theorem decoderNeverEntersInit : Obligations.DecoderNeverEntersInit := by
  unfold Obligations.DecoderNeverEntersInit
  intro s t val h hinit
  cases perform_decAccept_effect h with
  | skipped hs => exact ⟨hs, rfl⟩
  | resultOnly r hs => exact absurd (by simpa using hinit) hs
  | marked v r hv hlt =>
    have hseed : v ≠ 0x00#8 := by rcases hv with rfl | rfl <;> decide
    exact absurd (by simpa using hinit) (dview_put_ne_init hlt hseed)
  | stored v hstored => exact absurd hinit (storeAndAdvance_dview_ne_init hstored)

/-! ### Operations with no window loaded (R71, R81, R171) -/

/-- At its bound the encoder sends `FLAG` for ever. -/
theorem encRun_end (k : Nat) {s : State} (h : s.encCur = s.encEnd) :
    encRun k s = .next { s with txBytes := s.txBytes ++ List.replicate k 0x7E#8 } := by
  induction k generalizing s with
  | zero => simp [encRun]
  | succ k ih =>
    have hnext : encRun (k + 1) s = encRun k (encReturn 0x7E#8 s) := by
      simp [encRun, List.replicate_succ, perform_encNext_end h]
    rw [hnext, ih (by simpa using h), List.replicate_succ]
    simp [encReturn]

/-- At its bound the decoder aborts every byte. -/
theorem decFeed_exh (w : List Byte) {s : State} (h : s.decCur = s.decEnd) :
    decFeed w s = .next { s with decResults := s.decResults ++ List.replicate w.length .abort } := by
  induction w generalizing s with
  | nil => simp [decFeed]
  | cons val w ih =>
    have hnext : decFeed (val :: w) s = decFeed w (decReturn .abort s) := by
      simp [decFeed, perform_decAccept_exh val h]
    rw [hnext, ih (by simpa using h), List.length_cons, List.replicate_succ]
    simp [decReturn]

/-- Settles O12: after reset both cursors are at their bounds. -/
theorem resetRegistersAndFirstOperations : Obligations.ResetRegistersAndFirstOperations := by
  unfold Obligations.ResetRegistersAndFirstOperations
  intro c s
  refine ⟨rfl, rfl, rfl, rfl, fun k => ?enc, fun w => ?dec⟩
  case enc => exact encRun_end k rfl
  case dec => exact decFeed_exh w rfl

/-! ### Earlier outputs are never read (R16) -/

/-- The same state with further outputs put before the ones it has recorded. -/
def State.withEarlier (s : State) (tx : List Byte) (dec : List Result) (host : List ReadBack) : State :=
  s.withOutputs (tx ++ s.txBytes) (dec ++ s.decResults) (host ++ s.readBacks)

section
variable (s : State) (tx : List Byte) (dec : List Result) (host : List ReadBack)

@[simp] theorem withEarlier_config : (s.withEarlier tx dec host).config = s.config := (rfl)
@[simp] theorem withEarlier_encCur : (s.withEarlier tx dec host).encCur = s.encCur := (rfl)
@[simp] theorem withEarlier_encEnd : (s.withEarlier tx dec host).encEnd = s.encEnd := (rfl)
@[simp] theorem withEarlier_decCur : (s.withEarlier tx dec host).decCur = s.decCur := (rfl)
@[simp] theorem withEarlier_decEnd : (s.withEarlier tx dec host).decEnd = s.decEnd := (rfl)
@[simp] theorem withEarlier_size (sp : Space) : (s.withEarlier tx dec host).size sp = s.size sp := by cases sp <;> rfl
@[simp] theorem withEarlier_memRead (sp : Space) (a : Nat) :
    (s.withEarlier tx dec host).memRead sp a = s.memRead sp a := withOutputs_memRead ..

@[simp] theorem withEarlier_put (sp : Space) (a : Nat) (v : Byte) :
    (s.withEarlier tx dec host).put sp a v = (s.put sp a v).withEarlier tx dec host := by cases sp <;> rfl
@[simp] theorem withEarlier_setEncWindow (a e : Nat) :
    (s.withEarlier tx dec host).setEncWindow a e = (s.setEncWindow a e).withEarlier tx dec host := (rfl)
@[simp] theorem withEarlier_setDecWindow (a e : Nat) :
    (s.withEarlier tx dec host).setDecWindow a e = (s.setDecWindow a e).withEarlier tx dec host := (rfl)
@[simp] theorem withEarlier_advanceEnc :
    (s.withEarlier tx dec host).advanceEnc = s.advanceEnc.withEarlier tx dec host := (rfl)
@[simp] theorem withEarlier_advanceDec :
    (s.withEarlier tx dec host).advanceDec = s.advanceDec.withEarlier tx dec host := (rfl)

@[simp] theorem withEarlier_encReturn (b : Byte) :
    encReturn b (s.withEarlier tx dec host) = (encReturn b s).withEarlier tx dec host := by
  simp [encReturn, State.withEarlier, State.withOutputs]
@[simp] theorem withEarlier_decReturn (r : Result) :
    decReturn r (s.withEarlier tx dec host) = (decReturn r s).withEarlier tx dec host := by
  simp [decReturn, State.withEarlier, State.withOutputs]
@[simp] theorem withEarlier_hostReturn (v : ReadBack) :
    hostReturn v (s.withEarlier tx dec host) = (hostReturn v s).withEarlier tx dec host := by
  simp [hostReturn, State.withEarlier, State.withOutputs]

@[simp] theorem withEarlier_encCell : encCell (s.withEarlier tx dec host) = encCell s := by
  simp [encCell, cellAtCursor]
@[simp] theorem withEarlier_decState : decState (s.withEarlier tx dec host) = decState s := by
  simp [decState, cellAtCursor]

/-- A state with the given outputs is one without any, with those put before. -/
theorem withOutputs_eq_withEarlier :
    s.withOutputs tx dec host = (s.withOutputs [] [] []).withEarlier tx dec host := by
  simp [State.withEarlier, State.withOutputs]

end

/-- An operation does not see the outputs recorded before it: put further ones before them, and its outcome is the same
but for those; a stop is the same stop. -/
def IgnoresEarlier (k : State → Out) : Prop :=
  ∀ (s : State) (tx : List Byte) (dec : List Result) (host : List ReadBack),
    k (s.withEarlier tx dec host) = andThen (k s) (fun t => .next (t.withEarlier tx dec host))

/-! How operations that ignore earlier outputs are put together. -/

theorem ignoresEarlier_andThen {k l : State → Out} (hk : IgnoresEarlier k) (hl : IgnoresEarlier l) :
    IgnoresEarlier (fun s => andThen (k s) l) := by
  intro s tx dec host
  beta_reduce
  rw [hk, andThen_assoc, andThen_assoc]
  congr 1
  funext t
  exact hl t tx dec host

theorem ignoresEarlier_inCase {cell : State → Except Fault (Option Byte)} {p : Option Byte → Bool}
    {k : State → Out} (hcell : ∀ s tx dec host, cell (State.withEarlier s tx dec host) = cell s)
    (hk : IgnoresEarlier k) :
    IgnoresEarlier (fun s => inCase (cell s) p (k s)) := by
  intro s tx dec host
  simp only [hcell, hk s tx dec host]
  unfold inCase
  split
  · rfl
  · split <;> rfl

theorem ignoresEarlier_ite {c : State → Prop} [DecidablePred c] {k l : State → Out}
    (hc : ∀ s tx dec host, c (State.withEarlier s tx dec host) ↔ c s) (hk : IgnoresEarlier k)
    (hl : IgnoresEarlier l) :
    IgnoresEarlier (fun s => if c s then k s else l s) := by
  intro s tx dec host
  by_cases h : c s
  · simp [hc, h, hk s tx dec host]
  · simp [hc, h, hl s tx dec host]

theorem ignoresEarlier_next {f : State → State}
    (hf : ∀ s tx dec host, f (State.withEarlier s tx dec host) = (f s).withEarlier tx dec host) :
    IgnoresEarlier (fun s => .next (f s)) := by
  intro s tx dec host
  beta_reduce
  rw [hf, andThen_next]

theorem ignoresEarlier_refused (r : Refusal) : IgnoresEarlier (fun _ => .refused r) := fun _ _ _ _ => rfl

/-- A unit's write, at an address that does not depend on the outputs. -/
theorem ignoresEarlier_store {sp : Space} {a : State → Nat} (v : Byte)
    (ha : ∀ s tx dec host, a (State.withEarlier s tx dec host) = a s) :
    IgnoresEarlier (fun s => store sp (a s) v s) := by
  intro s tx dec host
  beta_reduce
  rw [ha, store_eq, store_eq, withEarlier_size]
  split <;> simp

/-! The shared parts of the units' cases. -/

theorem advanceAndPrepare_ignoresEarlier : IgnoresEarlier advanceAndPrepare := by
  refine ignoresEarlier_ite (c := fun s => s.advanceDec.decCur = s.advanceDec.decEnd) (by simp) ?full ?room
  case full => exact ignoresEarlier_next (by simp)
  case room =>
    intro s tx dec host
    have hstore := ignoresEarlier_andThen
      (ignoresEarlier_store (sp := .rx) (a := State.decCur) 0x7E#8 (by simp))
      (ignoresEarlier_next (f := decReturn .pending) (by simp))
    simpa using hstore s.advanceDec tx dec host

theorem storeAndAdvance_ignoresEarlier (v : Byte) : IgnoresEarlier (storeAndAdvance v) :=
  ignoresEarlier_andThen (ignoresEarlier_store v (by simp)) advanceAndPrepare_ignoresEarlier

theorem encStuff_ignoresEarlier (b : Byte) : IgnoresEarlier (encStuff b) :=
  ignoresEarlier_inCase (by simp)
    (ignoresEarlier_andThen (ignoresEarlier_store _ (by simp)) (ignoresEarlier_next (by simp)))

theorem decUnesc_ignoresEarlier (val : Byte) : IgnoresEarlier (decUnesc val) :=
  ignoresEarlier_inCase (by simp)
    (ignoresEarlier_ite (by simp) (ignoresEarlier_next (by simp)) (storeAndAdvance_ignoresEarlier _))

/-- R84 and R86: a marker is written at the cursor. -/
theorem marker_ignoresEarlier (p : Option Byte → Bool) (v : Byte) (r : Result) :
    IgnoresEarlier (fun s => inCase (decState s) p
      (andThen (store .rx s.decCur v s) (fun t => .next (decReturn r t)))) :=
  ignoresEarlier_inCase (by simp)
    (ignoresEarlier_andThen (ignoresEarlier_store _ (by simp)) (ignoresEarlier_next (by simp)))

/-- R81, R83, R85 and R88: nothing but the result. -/
theorem resultOnly_ignoresEarlier (p : Option Byte → Bool) (r : Result) :
    IgnoresEarlier (fun s => inCase (decState s) p (.next (decReturn r s))) :=
  ignoresEarlier_inCase (by simp) (ignoresEarlier_next (by simp))

theorem decData_ignoresEarlier (state val : Byte) : IgnoresEarlier (decData state val) :=
  ignoresEarlier_inCase (by simp) (storeAndAdvance_ignoresEarlier val)

/-! The host operations. -/

theorem execEncLoad_ignoresEarlier (a e : Nat) : IgnoresEarlier (execEncLoad a e) :=
  ignoresEarlier_ite (by simp) (ignoresEarlier_next (by simp)) (ignoresEarlier_refused _)

theorem execDecLoad_ignoresEarlier (a e : Nat) : IgnoresEarlier (execDecLoad a e) :=
  ignoresEarlier_ite (by simp) (ignoresEarlier_next (by simp)) (ignoresEarlier_refused _)

theorem hostWrite_ignoresEarlier (sp : Space) (a : Nat) (v : Byte) : IgnoresEarlier (hostWrite sp a v) := by
  intro s tx dec host
  rw [hostWrite_eq, hostWrite_eq, withEarlier_size]
  split <;> simp

theorem hostRead_ignoresEarlier (sp : Space) (a : Nat) : IgnoresEarlier (hostRead sp a) := by
  intro s tx dec host
  unfold hostRead
  rw [withEarlier_memRead]
  split <;> simp

theorem execDecSeed_ignoresEarlier : IgnoresEarlier execDecSeed := by
  refine ignoresEarlier_ite (by simp) (ignoresEarlier_refused _) ?_
  intro s tx dec host
  exact hostWrite_ignoresEarlier .rx s.decCur 0x00#8 s tx dec host

theorem writeFrame_ignoresEarlier (a : Nat) (bytes : List Byte) : IgnoresEarlier (writeFrame a bytes) := by
  induction bytes generalizing a with
  | nil => exact ignoresEarlier_next (f := id) (by simp)
  | cons b bytes ih => exact ignoresEarlier_andThen (hostWrite_ignoresEarlier .tx a b) (ih (a + 1))

theorem exec_ignoresEarlier (i : Instr) : IgnoresEarlier (exec i) := by
  cases i with
  | encNextEnd => exact ignoresEarlier_inCase (by simp) (ignoresEarlier_next (by simp))
  | encNextStuffEsc => exact encStuff_ignoresEarlier 0x7D#8
  | encNextStuffFlag => exact encStuff_ignoresEarlier 0x7E#8
  | encNextStuffAbort => exact encStuff_ignoresEarlier 0x7F#8
  | encNextLit b => exact ignoresEarlier_inCase (by simp) (ignoresEarlier_next (by simp))
  | decAcceptExh val => exact resultOnly_ignoresEarlier _ _
  | decAcceptUnescEsc => exact decUnesc_ignoresEarlier 0x7D#8
  | decAcceptUnescAbort => exact decUnesc_ignoresEarlier 0x7F#8
  | decAcceptUnesc val =>
    exact ignoresEarlier_ite (by simp) (ignoresEarlier_refused _) (decUnesc_ignoresEarlier val)
  | decAcceptSkip => exact resultOnly_ignoresEarlier _ _
  | decAcceptEscinInit => exact marker_ignoresEarlier _ _ _
  | decAcceptEscinReady => exact marker_ignoresEarlier _ _ _
  | decAcceptDone => exact resultOnly_ignoresEarlier _ _
  | decAcceptSabortInit => exact marker_ignoresEarlier _ _ _
  | decAcceptSabortReady => exact marker_ignoresEarlier _ _ _
  | decAcceptDataInit val => exact decData_ignoresEarlier 0x00#8 val
  | decAcceptDataReady val => exact decData_ignoresEarlier 0x7E#8 val
  | decAcceptCorrupt state val => exact resultOnly_ignoresEarlier _ _
  | encLoad a e => exact execEncLoad_ignoresEarlier a e
  | decLoad a e => exact execDecLoad_ignoresEarlier a e
  | txWrite a v => exact hostWrite_ignoresEarlier .tx a v
  | txRead a => exact hostRead_ignoresEarlier .tx a
  | rxWrite a v => exact hostWrite_ignoresEarlier .rx a v
  | rxRead a => exact hostRead_ignoresEarlier .rx a
  | encCur => exact ignoresEarlier_next (by simp)
  | decCur => exact ignoresEarlier_next (by simp)
  | decSeed => exact execDecSeed_ignoresEarlier
  | txFrame a bytes =>
    exact ignoresEarlier_andThen (writeFrame_ignoresEarlier a bytes) (execEncLoad_ignoresEarlier a (a + bytes.length))
  | rxOpen a e => exact ignoresEarlier_andThen (execDecLoad_ignoresEarlier a e) execDecSeed_ignoresEarlier
  | reset => exact ignoresEarlier_next (fun _ _ _ _ => rfl)

/-- Settles O38: what an instruction puts out is what it puts out when nothing has been put out before. -/
theorem outputsAreNeverRead : Obligations.OutputsAreNeverRead := by
  unfold Obligations.OutputsAreNeverRead
  intro i s t h
  have hfrom : ∀ tx dec host, exec i (s.withOutputs tx dec host) =
      andThen (exec i (s.withOutputs [] [] [])) (fun u => .next (u.withEarlier tx dec host)) := by
    intro tx dec host
    rw [withOutputs_eq_withEarlier]
    exact exec_ignoresEarlier i _ tx dec host
  have hs : exec i (s.withOutputs s.txBytes s.decResults s.readBacks) = .next t := h
  rw [hfrom] at hs
  obtain ⟨u, hu, ht⟩ := andThen_eq_next.1 hs
  cases ht
  refine ⟨u.txBytes, u.decResults, u.readBacks, rfl, rfl, rfl, fun tx0 dec0 host0 => ?_⟩
  rw [hfrom, hu]
  rfl

end Sys2Proof.Machine
end

section
/-! Proofs of the family 20_memory.md: what each unit's port does (R35, R36, R39, R90), what the units' cases leave
unchanged, and the independence of the two units and of several blocks (R43, R162). -/

namespace Sys2Proof.Machine

/-! ### What a write is to the cells as they read (R34) -/

/-- Every cell after a write: the written one reads the byte written, any other what it read before. -/
theorem put_memRead (s : State) {sp : Space} {a : Nat} (v : Byte) (ha : a < s.size sp) (sp' : Space) (c : Nat) :
    (s.put sp a v).memRead sp' c = if sp = sp' ∧ a = c then some v else s.memRead sp' c := by
  by_cases h : sp = sp' ∧ a = c
  · obtain ⟨rfl, rfl⟩ := h
    simp [put_memRead_self s v ha]
  · rw [if_neg h]
    exact put_memRead_other s v (by tauto)

/-- A state that reads as one written to differs in the written cell at most. -/
theorem sameCellsBut_of_put {s t : State} {sp : Space} {a : Nat} (v : Byte)
    (h : ∀ c, t.memRead sp c = (s.put sp a v).memRead sp c) : SameCellsBut sp [a] s t :=
  fun c hc => (h c).trans (put_memRead_other s v (Or.inr (by simpa using hc)))

theorem SameCellsBut.mono {sp : Space} {written written' : List Nat} {s t : State}
    (h : SameCellsBut sp written s t) (hsub : written ⊆ written') : SameCellsBut sp written' s t :=
  fun c hc => h c (fun hmem => hc (hsub hmem))

theorem SameCellsBut.trans {sp : Space} {written written' : List Nat} {s t u : State}
    (h : SameCellsBut sp written s t) (h' : SameCellsBut sp written' t u) :
    SameCellsBut sp (written ++ written') s u := by
  intro c hc
  rw [List.mem_append, not_or] at hc
  rw [h' c hc.2, h c hc.1]

/-! ### What the cases leave unchanged -/

/-- R35: no case of `ENC.NEXT` touches its bound, the decoder or anything outside, and each returns one byte. -/
theorem EncOutcome.frame {i : Instr} {s t : State} (h : EncOutcome i s t) :
    t.encEnd = s.encEnd ∧ SameDecoder s t ∧ SameOutside s t ∧ ∃ b, t.txBytes = s.txBytes ++ [b] := by
  cases h with
  | sent => simp [SameDecoder, SameOutside]
  | stuffed => simp [SameDecoder, SameOutside]
  | literal => simp [SameDecoder, SameOutside]

/-- R36: no case of `DEC.ACCEPT` touches its bound, the encoder or anything outside, and each returns one result. -/
theorem DecOutcome.frame {s t : State} (h : DecOutcome s t) :
    t.decEnd = s.decEnd ∧ SameEncoder s t ∧ SameOutside s t ∧ ∃ r, t.decResults = s.decResults ++ [r] := by
  cases h with
  | result => simp [SameEncoder, SameOutside]
  | marker => simp [SameEncoder, SameOutside]
  | full => simp [SameEncoder, SameOutside]
  | room => simp [SameEncoder, SameOutside]

/-- R90: `DEC.ACCEPT` can change the cell at its cursor and, unless the advance reaches the bound, the next one. -/
theorem DecOutcome.sameCellsBut {s t : State} (h : DecOutcome s t) :
    SameCellsBut .rx (if s.decCur + 1 = s.decEnd then [s.decCur] else [s.decCur, s.decCur + 1]) s t := by
  have hcursor : [s.decCur] ⊆ if s.decCur + 1 = s.decEnd then [s.decCur] else [s.decCur, s.decCur + 1] := by
    split <;> simp
  cases h with
  | result r => exact fun c _ => decReturn_memRead ..
  | marker v r => exact (sameCellsBut_of_put v (fun c => decReturn_memRead ..)).mono hcursor
  | full v => exact (sameCellsBut_of_put v (fun c => by simp)).mono hcursor
  | room v _ _ hroom =>
    rw [if_neg hroom]
    have hdata : SameCellsBut .rx [s.decCur] s (s.put .rx s.decCur v).advanceDec :=
      sameCellsBut_of_put v (fun c => advanceDec_memRead ..)
    exact hdata.trans (sameCellsBut_of_put 0x7E#8 (fun c => decReturn_memRead ..))

/-- Settles O16, from the three outcomes of a case of `ENC.NEXT`. -/
theorem encCasesFrame : Obligations.EncCasesFrame := by
  unfold Obligations.EncCasesFrame
  intro s t i hf h
  have hout := enc_outcome hf h
  obtain ⟨hend, hdec, houtside, hbyte⟩ := hout.frame
  refine ⟨hend, hdec, houtside, hbyte, ?_⟩
  cases hout with
  | sent hi => simp [hi, SameCellsBut]
  | stuffed b hi =>
    refine ⟨?lit, ?theEnd, fun _ => ⟨by simp, ?stuff⟩⟩
    case lit => rintro ⟨b', rfl⟩; simp at hi
    case theEnd => rintro rfl; simp at hi
    case stuff => exact sameCellsBut_of_put (escapeX b) (fun c => encReturn_memRead ..)
  | literal b hi => simp [hi, SameCellsBut]

/-- A case that only returns a result changes no register and no cell. -/
theorem sameCells_of_resultOnly {p : Option Byte → Bool} {s t : State} {r : Result}
    (h : inCase (decState s) p (.next (decReturn r s)) = .next t) :
    t.decCur = s.decCur ∧ SameCellsBut .rx [] s t := by
  obtain rfl := resultOnly_next h
  exact ⟨rfl, fun c _ => decReturn_memRead ..⟩

/-- A case that writes a marker leaves the cursor and every cell but the one there. -/
theorem sameCells_of_marker {st v : Byte} {r : Result} {s t : State}
    (h : inCase (decState s) (fun c => c == some st)
      (andThen (store .rx s.decCur v s) (fun u => .next (decReturn r u))) = .next t) :
    t.decCur = s.decCur ∧ SameCellsBut .rx [s.decCur] s t := by
  obtain ⟨_, _, _, rfl⟩ := marker_next h
  exact ⟨by simp, sameCellsBut_of_put v (fun c => decReturn_memRead ..)⟩

/-- Settles O28: what every case leaves, from the four outcomes of `DEC.ACCEPT`; then the cases that write nothing and
those that write a marker. -/
theorem decCasesFrame : Obligations.DecCasesFrame := by
  unfold Obligations.DecCasesFrame
  intro s t i hf h
  have hout := dec_outcome hf h
  obtain ⟨hend, henc, houtside, hresult⟩ := hout.frame
  refine ⟨hend, henc, houtside, hresult, hout.cursorsMove.dec.imp_right And.left, hout.sameCellsBut,
    ?writesNothing, ?writesMarker⟩
  case writesNothing =>
    rintro (⟨v, rfl⟩ | rfl | rfl | ⟨st, v, rfl⟩) <;> exact sameCells_of_resultOnly h
  case writesMarker =>
    rintro (rfl | rfl | rfl | rfl) <;> exact sameCells_of_marker h

/-! ### `DEC.ACCEPT` as one action on its cell -/

/-- What `DEC.ACCEPT` does once it has read its state register. -/
inductive DecAction where
  | answer (r : Result)             -- R82 under policy ABORT, R83, R88: the result alone
  | done                            -- R85: the frame is complete
  | mark (v : Byte) (r : Result)    -- R84, R86: a marker takes the place of the state
  | data (v : Byte)                 -- R82, R87: a data byte takes its place and the cursor moves on

/-- R80: the action for a state and a received byte, the tests in the rule's order. -/
def decAction (policy : EscReservedPolicy) (st val : Byte) : DecAction :=
  if st = 0x7D#8 then
    if policy = .abort ∧ (val = 0x7D#8 ∨ val = 0x7F#8) then .answer .abort else .data (escapeX val)
  else if st = 0x00#8 ∨ st = 0x7E#8 then
    if val = 0x7E#8 then (if st = 0x00#8 then .answer .pending else .done)
    else if val = 0x7D#8 then .mark 0x7D#8 .pending
    else if val = 0x7F#8 then .mark 0x7F#8 .abort
    else .data val
  else .answer .abort

/-- The effect of an action on the block. -/
def DecAction.run (s : State) : DecAction → Out
  | .answer r => .next (decReturn r s)
  | .done => .next (decReturn .frameComplete s)
  | .mark v r => andThen (store .rx s.decCur v s) (fun t => .next (decReturn r t))
  | .data v => storeAndAdvance v s

/-- The writes of an action on the memory port (R90). -/
def DecAction.writes (s : State) : DecAction → List Access
  | .answer _ => []
  | .done => [.write .rx s.decCur FLAG]
  | .mark v _ => [.write .rx s.decCur v]
  | .data v => .write .rx s.decCur v :: advanceAccesses s

/-- An action that writes a marker, of a cell that exists. -/
theorem DecAction.run_mark {s : State} (v : Byte) (r : Result) (hlt : s.decCur < s.size .rx) :
    (DecAction.mark v r).run s = .next (decReturn r (s.put .rx s.decCur v)) := by
  rw [DecAction.run, store_of_lt v hlt, andThen_next]

/-- DONE is taken in `READY` only (R85). -/
theorem decAction_eq_done {policy : EscReservedPolicy} {st val : Byte} (h : decAction policy st val = .done) :
    st = 0x7E#8 := by
  unfold decAction at h
  split_ifs at h
  tauto

/-- R80: with a state register to read, `DEC.ACCEPT` runs the action of its state and the received byte. -/
theorem perform_decAccept_action {s : State} {st : Byte} (val : Byte) (h : s.decCur ≠ s.decEnd)
    (hst : s.memRead .rx s.decCur = some st) :
    perform (.decAccept val) s = (decAction s.config.policy st val).run s := by
  have hlt := memRead_lt hst
  unfold decAction
  split_ifs with hesc hpolicy hl hflag hinit hescIn habort
  · subst hesc; rw [perform_decAccept_unesc val h hst, if_pos hpolicy]; rfl
  · subst hesc; rw [perform_decAccept_unesc val h hst, if_neg hpolicy]; rfl
  · subst hflag hinit; exact perform_decAccept_skip h hst
  · subst hflag
    obtain rfl := hl.resolve_left hinit
    exact perform_decAccept_done h hst
  · subst hescIn; rw [perform_decAccept_escin h hst hl, DecAction.run_mark _ _ hlt]
  · subst habort; rw [perform_decAccept_sabort h hst hl, DecAction.run_mark _ _ hlt]
  · exact perform_decAccept_data h hst hl ((not_reserved_iff val).2 ⟨hescIn, hflag, habort⟩)
  · have hillegal : legalState st = false := by
      rw [← Bool.not_eq_true, legalState_iff]
      tauto
    exact perform_decAccept_corrupt val h hst hillegal

/-! ### The access lists by the state they start from -/

theorem encAccesses_guard {s : State} (h : s.encCur = s.encEnd) : encAccesses s = [] := by
  simp [encAccesses, encCell_guard h]

theorem encAccesses_cell {s : State} {b : Byte} (h : s.encCur ≠ s.encEnd) (hb : s.memRead .tx s.encCur = some b) :
    encAccesses s =
      .read .tx s.encCur :: (if reserved b then [.write .tx s.encCur (escapeX b)] else []) := by
  simp [encAccesses, encCell_cell h hb]

theorem decAccesses_guard {s : State} (val : Byte) (h : s.decCur = s.decEnd) : decAccesses val s = [] := by
  simp [decAccesses, decState_guard h]

/-- R90: one read of the state register, then the writes of the action it selects. -/
theorem decAccesses_cell {s : State} {st : Byte} (val : Byte) (h : s.decCur ≠ s.decEnd)
    (hst : s.memRead .rx s.decCur = some st) :
    decAccesses val s = .read .rx s.decCur :: (decAction s.config.policy st val).writes s := by
  simp only [decAccesses, decState_cell h hst, decodeDec_some]
  congr 1
  by_cases hesc : st = 0x7D#8
  · by_cases h1 : val = 0x7D#8
    · by_cases hp : s.config.policy = .abort <;> simp [decAction, DecAction.writes, hesc, h1, hp]
    · by_cases h2 : val = 0x7F#8
      · by_cases hp : s.config.policy = .abort <;> simp [decAction, DecAction.writes, hesc, h2, hp]
      · simp [decAction, DecAction.writes, hesc, h1, h2]
  by_cases hl : st = 0x00#8 ∨ st = 0x7E#8
  · by_cases h1 : val = 0x7E#8
    · rcases hl with rfl | rfl <;> simp [decAction, DecAction.writes, h1]
    · by_cases h2 : val = 0x7D#8
      · rcases hl with rfl | rfl <;> simp [decAction, DecAction.writes, h2]
      · by_cases h3 : val = 0x7F#8
        · rcases hl with rfl | rfl <;> simp [decAction, DecAction.writes, h3]
        · rcases hl with rfl | rfl <;> simp [decAction, DecAction.writes, h1, h2, h3]
  · obtain ⟨hinit, hready⟩ := not_or.1 hl
    simp [decAction, DecAction.writes, hesc, hinit, hready]

/-! ### A unit operation within its window answers (R39, R70, R80) -/

theorem perform_encNext_answers {s : State} (hs : s.WindowsOk) : ∃ t, perform .encNext s = .next t := by
  obtain ⟨hcur, hend, _, _⟩ := hs
  by_cases hguard : s.encCur = s.encEnd
  · exact ⟨_, perform_encNext_end hguard⟩
  obtain ⟨b, hb⟩ := memRead_of_lt (s := s) (sp := .tx) (a := s.encCur) (by omega)
  cases hr : reserved b with
  | true => exact ⟨_, perform_encNext_stuff hguard hb hr⟩
  | false => exact ⟨_, perform_encNext_lit hguard hb hr⟩

/-- An action below the bound of a window that fits the buffer never stops. -/
theorem DecAction.run_answers {s : State} (a : DecAction) (hlt : s.decCur < s.decEnd) (hend : s.decEnd ≤ s.size .rx) :
    ∃ t, a.run s = .next t := by
  cases a with
  | answer r => exact ⟨_, rfl⟩
  | done => exact ⟨_, rfl⟩
  | mark v r => exact ⟨_, run_mark v r (by omega)⟩
  | data v =>
    by_cases hfull : s.decCur + 1 = s.decEnd
    · exact ⟨_, storeAndAdvance_full v (by omega) hfull⟩
    · exact ⟨_, storeAndAdvance_room v hfull (by omega)⟩

theorem perform_decAccept_answers {s : State} (val : Byte) (hs : s.WindowsOk) :
    ∃ t, perform (.decAccept val) s = .next t := by
  obtain ⟨_, _, hcur, hend⟩ := hs
  by_cases hguard : s.decCur = s.decEnd
  · exact ⟨_, perform_decAccept_exh val hguard⟩
  obtain ⟨st, hst⟩ := memRead_of_lt (s := s) (sp := .rx) (a := s.decCur) (by omega)
  rw [perform_decAccept_action val hguard hst]
  exact DecAction.run_answers _ (by omega) hend

/-- Settles O11: taking the request off leaves the windows, within which either unit answers. -/
theorem unitStepNeverStops : Obligations.UnitStepNeverStops := by
  unfold Obligations.UnitStepNeverStops
  intro s r rest hs hreq hr
  have hwin : ({ s with requests := rest } : State).WindowsOk := ((inv_iff s).1 hs).1
  have hstep : step s = perform r { s with requests := rest } := by simp [step, performNext, hreq]
  rw [hstep]
  rcases hr with rfl | ⟨val, rfl⟩
  · exact perform_encNext_answers hwin
  · exact perform_decAccept_answers val hwin

/-! ### Every address is below its bound (R39) -/

theorem advanceAccesses_below {s : State} (hlt : s.decCur < s.decEnd) :
    ∀ x ∈ advanceAccesses s, x.space = .rx ∧ x.address < s.decEnd := by
  unfold advanceAccesses
  split
  · simp
  · next hroom =>
    simp only [List.mem_singleton]
    rintro x rfl
    exact ⟨rfl, show s.decCur + 1 < s.decEnd by omega⟩

theorem DecAction.writes_below {s : State} (a : DecAction) (hlt : s.decCur < s.decEnd) :
    ∀ x ∈ a.writes s, x.space = .rx ∧ x.address < s.decEnd := by
  cases a with
  | answer r => simp [writes]
  | done => simpa [writes, Access.space, Access.address] using hlt
  | mark v r => simpa [writes, Access.space, Access.address] using hlt
  | data v => exact List.forall_mem_cons.2 ⟨⟨rfl, hlt⟩, advanceAccesses_below hlt⟩

theorem encAccesses_below {s : State} (hs : s.WindowsOk) :
    ∀ x ∈ encAccesses s, x.space = .tx ∧ x.address < s.encEnd := by
  obtain ⟨hcur, hend, _, _⟩ := hs
  by_cases hguard : s.encCur = s.encEnd
  · simp [encAccesses_guard hguard]
  have hlt : s.encCur < s.encEnd := by omega
  obtain ⟨b, hb⟩ := memRead_of_lt (s := s) (sp := .tx) (a := s.encCur) (by omega)
  rw [encAccesses_cell hguard hb]
  refine List.forall_mem_cons.2 ⟨⟨rfl, hlt⟩, ?_⟩
  split
  · simpa [Access.space, Access.address] using hlt
  · simp

theorem decAccesses_below {s : State} (val : Byte) (hs : s.WindowsOk) :
    ∀ x ∈ decAccesses val s, x.space = .rx ∧ x.address < s.decEnd := by
  obtain ⟨_, _, hcur, hend⟩ := hs
  by_cases hguard : s.decCur = s.decEnd
  · simp [decAccesses_guard val hguard]
  have hlt : s.decCur < s.decEnd := by omega
  obtain ⟨st, hst⟩ := memRead_of_lt (s := s) (sp := .rx) (a := s.decCur) (by omega)
  rw [decAccesses_cell val hguard hst]
  exact List.forall_mem_cons.2 ⟨⟨rfl, hlt⟩, DecAction.writes_below _ hlt⟩

/-- Settles O39: every address is below the end bound, and the bound is within the space. -/
theorem accessesStayBelowBound : Obligations.AccessesStayBelowBound := by
  unfold Obligations.AccessesStayBelowBound
  intro s val hs
  have ⟨_, hencEnd, _, hdecEnd⟩ := hs
  refine ⟨fun x hx => ?enc, fun x hx => ?dec⟩
  case enc =>
    obtain ⟨hsp, hlt⟩ := encAccesses_below hs x hx
    exact ⟨hsp, hlt, lt_of_lt_of_le hlt hencEnd⟩
  case dec =>
    obtain ⟨hsp, hlt⟩ := decAccesses_below val hs x hx
    exact ⟨hsp, hlt, lt_of_lt_of_le hlt hdecEnd⟩

/-! ### The access lists account for every change (R35, R36, R90) -/

/-- After `ENC.NEXT` every cell reads the latest listed write to it, or what it held. -/
theorem encAccesses_complete {s t : State} (sp : Space) (a : Nat) (h : perform .encNext s = .next t) :
    t.memRead sp a = readAfter sp a (s.memRead sp a) (encAccesses s) := by
  obtain ⟨i, hf, hi⟩ := perform_encNext_case h
  cases enc_outcome hf hi with
  | sent _ hguard => simp [encAccesses_guard hguard, readAfter]
  | stuffed b _ hr hne hb =>
    simp [encAccesses_cell hne hb, hr, readAfter, put_memRead s _ (memRead_lt hb)]
  | literal b _ hr hne hb => simp [encAccesses_cell hne hb, hr, readAfter]

/-- The writes of an action account for its effect; the write of DONE is over its own value (R85). -/
theorem DecAction.writes_complete {s t : State} {x : DecAction} (sp : Space) (a : Nat)
    (hdone : x = .done → s.memRead .rx s.decCur = some FLAG) (h : x.run s = .next t) :
    t.memRead sp a = readAfter sp a (s.memRead sp a) (x.writes s) := by
  cases x with
  | answer r => cases h; simp [writes, readAfter]
  | done =>
    cases h
    simp only [writes, readAfter, decReturn_memRead]
    split
    · next hcell =>
      obtain ⟨rfl, rfl⟩ := hcell
      exact hdone rfl
    · rfl
  | mark v r =>
    obtain ⟨u, hu, ht⟩ := andThen_eq_next.1 h
    obtain ⟨hlt, rfl⟩ := store_eq_next.1 hu
    cases ht
    simp [writes, readAfter, put_memRead s v hlt]
  | data v =>
    obtain ⟨hlt, ⟨hfull, rfl⟩ | ⟨hroom, hlt', rfl⟩⟩ := storeAndAdvance_next h
    · simp [writes, advanceAccesses, hfull, readAfter, put_memRead s v hlt]
    · have hflag := put_memRead (s.put .rx s.decCur v).advanceDec 0x7E#8 (sp := .rx) (by simpa using hlt')
      simp [writes, advanceAccesses, hroom, readAfter, hflag, put_memRead s v hlt]

/-- After `DEC.ACCEPT` every cell reads the latest listed write to it, or what it held. -/
theorem decAccesses_complete {s t : State} {val : Byte} (sp : Space) (a : Nat)
    (h : perform (.decAccept val) s = .next t) :
    t.memRead sp a = readAfter sp a (s.memRead sp a) (decAccesses val s) := by
  rcases perform_decAccept_reads h with hguard | ⟨hne, st, hst⟩
  · rw [perform_decAccept_exh val hguard] at h
    cases h
    simp [decAccesses_guard val hguard, readAfter]
  · rw [perform_decAccept_action val hne hst] at h
    rw [decAccesses_cell val hne hst]
    refine DecAction.writes_complete sp a (fun hdone => ?_) h
    rw [hst, decAction_eq_done hdone, FLAG_eq]

/-- Settles O40, one unit after the other. -/
theorem accessListsAreComplete : Obligations.AccessListsAreComplete := by
  unfold Obligations.AccessListsAreComplete
  intro s t val sp a
  exact ⟨encAccesses_complete sp a, decAccesses_complete sp a⟩

/-! ### The two units are independent (R43) -/

/-- A block put together from parts of others: what lies outside the units from the first, the encoder with its buffer
and output from the second, the decoder with its own from the third. -/
def State.assemble (outside enc dec : State) : State :=
  { outside with encCur := enc.encCur, encEnd := enc.encEnd, txBuf := enc.txBuf, txBytes := enc.txBytes,
                 decCur := dec.decCur, decEnd := dec.decEnd, rxBuf := dec.rxBuf, decResults := dec.decResults }

theorem assemble_self (s : State) : State.assemble s s s = s := rfl

/-- `ENC.NEXT` does the same beside any decoder, and leaves that decoder as it is. -/
theorem perform_encNext_assemble {s t : State} (d : State) (h : perform .encNext s = .next t) :
    perform .encNext (.assemble s s d) = .next (.assemble s t d) := by
  obtain ⟨i, hf, hi⟩ := perform_encNext_case h
  cases enc_outcome hf hi with
  | sent _ hguard => exact perform_encNext_end (s := .assemble s s d) hguard
  | stuffed b _ hr hne hb => exact perform_encNext_stuff (s := .assemble s s d) hne hb hr
  | literal b _ hr hne hb => exact perform_encNext_lit (s := .assemble s s d) hne hb hr

/-- An action of the decoder does the same beside any encoder, and leaves that encoder as it is. -/
theorem DecAction.run_assemble {s t : State} {x : DecAction} (e : State) (h : x.run s = .next t) :
    x.run (.assemble s e s) = .next (.assemble s e t) := by
  cases x with
  | answer r => cases h; rfl
  | done => cases h; rfl
  | mark v r =>
    obtain ⟨u, hu, ht⟩ := andThen_eq_next.1 h
    obtain ⟨hlt, rfl⟩ := store_eq_next.1 hu
    cases ht
    exact run_mark (s := .assemble s e s) v r hlt
  | data v =>
    obtain ⟨hlt, ⟨hfull, rfl⟩ | ⟨hroom, hlt', rfl⟩⟩ := storeAndAdvance_next h
    · exact storeAndAdvance_full (s := .assemble s e s) v hlt hfull
    · exact storeAndAdvance_room (s := .assemble s e s) v hroom hlt'

/-- `DEC.ACCEPT` does the same beside any encoder, and leaves that encoder as it is. -/
theorem perform_decAccept_assemble {s t : State} {val : Byte} (e : State)
    (h : perform (.decAccept val) s = .next t) :
    perform (.decAccept val) (.assemble s e s) = .next (.assemble s e t) := by
  rcases perform_decAccept_reads h with hguard | ⟨hne, st, hst⟩
  · rw [perform_decAccept_exh val hguard] at h
    cases h
    exact perform_decAccept_exh (s := .assemble s e s) val hguard
  · rw [perform_decAccept_action val hne hst] at h
    rw [perform_decAccept_action (s := .assemble s e s) val hne hst]
    exact DecAction.run_assemble e h

/-- Settles O36: either order ends with what is outside unchanged, the encoder after `ENC.NEXT` and the decoder after
`DEC.ACCEPT`. -/
theorem unitsCommute : Obligations.UnitsCommute := by
  unfold Obligations.UnitsCommute
  intro s val hs
  obtain ⟨e, he⟩ := perform_encNext_answers hs
  obtain ⟨d, hd⟩ := perform_decAccept_answers val hs
  have hencFirst := perform_encNext_assemble s he
  have hdecFirst := perform_decAccept_assemble s hd
  rw [assemble_self] at hencFirst hdecFirst
  refine ⟨.assemble s e d, ?encThenDec, ?decThenEnc⟩
  case encThenDec => simp [hencFirst, perform_decAccept_assemble e hd]
  case decThenEnc => simp [hdecFirst, perform_encNext_assemble d he]

/-! ### Several blocks are independent (R43, R162) -/

/-- A step of block `k` answers when that block's own step does, and replaces that block alone. -/
theorem stepInstance_eq_next {k : Nat} {blocks b : List State} :
    stepInstance k blocks = some (.next b) ↔
      ∃ s t, blocks[k]? = some s ∧ step s = .next t ∧ b = blocks.set k t := by
  unfold stepInstance
  cases hk : blocks[k]? with
  | none => simp
  | some s => cases hstep : step s <;> simp [hstep, eq_comm]

/-- Settles O37: a block's step reads and replaces its own place in the list, and the two places differ. -/
theorem instancesAreIndependent : Obligations.InstancesAreIndependent := by
  unfold Obligations.InstancesAreIndependent
  intro blocks b1 b2 j k hjk h1 h2
  obtain ⟨s, t, hs, hst, rfl⟩ := stepInstance_eq_next.1 h1
  obtain ⟨u, v, hu, huv, rfl⟩ := stepInstance_eq_next.1 h2
  have hkeepK : (blocks.set j t)[k]? = blocks[k]? := List.getElem?_set_ne hjk
  have hkeepJ : (blocks.set k v)[j]? = blocks[j]? := List.getElem?_set_ne hjk.symm
  refine ⟨hkeepK, (blocks.set j t).set k v, ?jThenK, ?kThenJ⟩
  case jThenK => exact stepInstance_eq_next.2 ⟨u, v, hkeepK.trans hu, huv, rfl⟩
  case kThenJ => exact stepInstance_eq_next.2 ⟨s, t, hkeepJ.trans hs, hst, List.set_comm _ _ hjk⟩

end Sys2Proof.Machine
end

section
/-! Proofs of the family 30_encoding.md: the escape transform (R58, R59), the selector tables read in both directions
(R60 to R62, R66, R80), and the wire format (R52, R116, R130). -/

namespace Sys2Proof

/-! ### The escape transform (R58, R59) -/

/-- R59 (a). -/
@[simp] theorem escapeX_escapeX (b : Byte) : escapeX (escapeX b) = b := by
  simp [escapeX]

/-- R59 (d): the bytes whose transform is reserved. -/
theorem reserved_escapeX_iff (b : Byte) :
    reserved (escapeX b) = true ↔ b = 0x5D#8 ∨ b = 0x5E#8 ∨ b = 0x5F#8 := by
  have hinv : Function.Involutive escapeX := escapeX_escapeX
  simp [reserved_iff, hinv.eq_iff, show escapeX 0x7D#8 = 0x5D#8 by decide,
    show escapeX 0x7E#8 = 0x5E#8 by decide, show escapeX 0x7F#8 = 0x5F#8 by decide]

/-- Settles O6, from the transform's being its own inverse. -/
theorem escapeTransformLaws : Obligations.EscapeTransformLaws := by
  unfold Obligations.EscapeTransformLaws
  intro b
  exact ⟨rfl, escapeX_escapeX b, reserved_escapeX_iff b, reserved_escapeX⟩

/-! ### Decoding undoes encoding (R60 to R62) -/

/-- R62: the operand of an "any other" row is none that an earlier row takes, so its own row is the first to match. -/
theorem decode_encode {i : Instr} (hi : i.wellFormed = true) : decode (encode i) = i := by
  cases i with
  | encNextLit b => exact decodeEnc_data (by simpa [Instr.wellFormed] using hi)
  | decAcceptUnesc val =>
    obtain ⟨hesc, habort⟩ : val ≠ 0x7D#8 ∧ val ≠ 0x7F#8 := by simpa [Instr.wellFormed] using hi
    simp [encode, decode, decodeDec_some, hesc, habort]
  | decAcceptDataInit val | decAcceptDataReady val =>
    obtain ⟨hesc, hflag, habort⟩ := (not_reserved_iff val).1 (by simpa [Instr.wellFormed] using hi)
    simp [encode, decode, decodeDec_some, hesc, hflag, habort]
  | decAcceptCorrupt state val =>
    obtain ⟨hinit, hready, hesc⟩ : state ≠ 0x00#8 ∧ state ≠ 0x7E#8 ∧ state ≠ 0x7D#8 := by
      simpa [Instr.wellFormed, legalState, and_assoc] using hi
    simp [encode, decode, decodeDec_some, hinit, hready, hesc]
  | encNextEnd | encNextStuffEsc | encNextStuffFlag | encNextStuffAbort => rfl
  | decAcceptExh | decAcceptUnescEsc | decAcceptUnescAbort | decAcceptSkip | decAcceptEscinInit
  | decAcceptEscinReady | decAcceptDone | decAcceptSabortInit | decAcceptSabortReady => rfl
  | encLoad | decLoad | txWrite | txRead | rxWrite | rxRead | encCur | decCur | decSeed | txFrame | rxOpen | reset =>
    rfl

/-- The bytes of a selector, read under its format, decode to its case (log entry 12). -/
theorem decodeBytes_bytes {sel : Selector} {bytes : List Byte} (h : sel.bytes = some bytes) :
    decodeBytes sel.format bytes = .ok (decode sel) := by
  cases sel with
  | enc cell => cases cell <;> cases h <;> rfl
  | dec state val => cases state <;> cases h <;> rfl
  | host op => cases h

theorem decodeBytes_encodeBytes {i : Instr} {bytes : List Byte} (hi : i.wellFormed = true)
    (hbytes : encodeBytes i = some bytes) : decodeBytes (encode i).format bytes = .ok i := by
  rw [decodeBytes_bytes hbytes, decode_encode hi]

/-- Settles O1. -/
theorem decodeEncodeAgree : Obligations.DecodeEncodeAgree := by
  unfold Obligations.DecodeEncodeAgree
  exact fun i hi => ⟨decode_encode hi, fun bytes => decodeBytes_encodeBytes hi⟩

/-- Settles O3: the words are the bytes of seven well-formed instructions. -/
theorem tableWordsDecode : Obligations.TableWordsDecode := by
  unfold Obligations.TableWordsDecode
  exact ⟨decodeBytes_encodeBytes (i := .encNextEnd) rfl rfl,
    decodeBytes_encodeBytes (i := .encNextStuffFlag) rfl rfl,
    decodeBytes_encodeBytes (i := .encNextLit 0x5E#8) rfl rfl,
    decodeBytes_encodeBytes (i := .decAcceptSkip) rfl rfl,
    decodeBytes_encodeBytes (i := .decAcceptDone) rfl rfl,
    decodeBytes_encodeBytes (i := .decAcceptUnesc 0x7E#8) rfl rfl,
    decodeBytes_encodeBytes (i := .decAcceptCorrupt 0x7F#8 0x00#8) rfl rfl⟩

/-! ### Encoding undoes decoding (R62, R66) -/

/-- The instruction stands for a row of the table, and `sel` is a selector of that row. -/
def SelectedBy (sel : Selector) (i : Instr) : Prop := i.wellFormed = true ∧ encode i = sel

theorem decodeEnc_selectedBy (cell : Option Byte) : SelectedBy (.enc cell) (decodeEnc cell) := by
  cases cell with
  | none => exact ⟨rfl, rfl⟩
  | some b =>
    by_cases hb : reserved b = true
    · rcases (reserved_iff b).1 hb with rfl | rfl | rfl <;> exact ⟨rfl, rfl⟩
    · simp only [Bool.not_eq_true] at hb
      rw [decodeEnc_data hb]
      exact ⟨by simp [Instr.wellFormed, hb], rfl⟩

/-- The rows state by state, in the order in which `decodeDec_some` tests them; the last of each state is its "any other"
row. -/
theorem decodeDec_selectedBy (state : Option Byte) (val : Byte) :
    SelectedBy (.dec state val) (decodeDec state val) := by
  cases state with
  | none => exact ⟨rfl, rfl⟩
  | some st =>
    rw [decodeDec_some]
    by_cases hesc : st = 0x7D#8
    · subst hesc
      rw [if_pos rfl]
      split_ifs with h1 h2 <;> subst_vars
      · exact ⟨rfl, rfl⟩
      · exact ⟨rfl, rfl⟩
      · exact ⟨by simp [Instr.wellFormed, h1, h2], rfl⟩
    rw [if_neg hesc]
    by_cases hinit : st = 0x00#8
    · subst hinit
      rw [if_pos rfl]
      split_ifs with h1 h2 h3 <;> subst_vars
      · exact ⟨rfl, rfl⟩
      · exact ⟨rfl, rfl⟩
      · exact ⟨rfl, rfl⟩
      · exact ⟨by simp [Instr.wellFormed, not_reserved_iff, h1, h2, h3], rfl⟩
    rw [if_neg hinit]
    by_cases hready : st = 0x7E#8
    · subst hready
      rw [if_pos rfl]
      split_ifs with h1 h2 h3 <;> subst_vars
      · exact ⟨rfl, rfl⟩
      · exact ⟨rfl, rfl⟩
      · exact ⟨rfl, rfl⟩
      · exact ⟨by simp [Instr.wellFormed, not_reserved_iff, h1, h2, h3], rfl⟩
    rw [if_neg hready]
    exact ⟨by simp [Instr.wellFormed, legalState, hesc, hinit, hready], rfl⟩

theorem decodeHost_selectedBy (op : HostOp) : SelectedBy (.host op) (decodeHost op) := by
  cases op <;> exact ⟨rfl, rfl⟩

/-- Settles O2, unit by unit. -/
theorem everySelectorDecodes : Obligations.EverySelectorDecodes := by
  unfold Obligations.EverySelectorDecodes
  intro sel
  cases sel with
  | enc cell => exact decodeEnc_selectedBy cell
  | dec state val => exact decodeDec_selectedBy state val
  | host op => exact decodeHost_selectedBy op

end Sys2Proof

namespace Sys2Proof.Machine

/-! ### The case that a unit operation runs (R60, R61, R80) -/

theorem perform_of_select {s : State} {r : Request} {sel : Selector} (h : select s r = .ok sel) :
    perform r s = exec (decode sel) s := by
  simp [perform, h]

/-- R60: the case is decoded from the byte at the cursor, which the guard leaves out. -/
theorem perform_encNext_of_cell {s : State} {cell : Option Byte} (h : encCell s = .ok cell) :
    perform .encNext s = exec (decodeEnc cell) s :=
  perform_of_select (sel := .enc cell) (by simp [select, h, Except.map])

/-- R80: the case is decoded from the byte and the state register, which the guard leaves out. -/
theorem perform_decAccept_of_state {s : State} {state : Option Byte} (val : Byte) (h : decState s = .ok state) :
    perform (.decAccept val) s = exec (decodeDec state val) s :=
  perform_of_select (sel := .dec state val) (by simp [select, h, Except.map])

/-- Settles O4: the guard reads no cell; below it the rows are those of `decodeEnc`, in the same order. -/
theorem encNextRowOrder : Obligations.EncNextRowOrder := by
  unfold Obligations.EncNextRowOrder
  intro s
  exact ⟨fun hguard => perform_encNext_of_cell (encCell_guard hguard),
    fun b hne hb => perform_encNext_of_cell (encCell_cell hne hb)⟩

/-- Settles O5: the guard reads no cell; below it the tests of R80, which take `INIT` and `READY` together, select the row
of R61 that is the first to match. -/
theorem decAcceptTestOrder : Obligations.DecAcceptTestOrder := by
  unfold Obligations.DecAcceptTestOrder
  intro s val
  refine ⟨fun hguard => perform_decAccept_of_state val (decState_guard hguard), fun st hne hst => ?_⟩
  rw [perform_decAccept_of_state val (decState_cell hne hst), decodeDec_some]
  by_cases hinit : st = 0x00#8
  · subst hinit
    by_cases hflag : val = 0x7E#8 <;> simp [hflag]
  · by_cases hready : st = 0x7E#8
    · subst hready
      simp
    · simp [hinit, hready]

/-! ### Bodies and frames, byte by byte (R52, R74, R116) -/

theorem stuff_reserved {b : Byte} (h : reserved b = true) (rest : List Byte) :
    stuff (b :: rest) = 0x7D#8 :: escapeX b :: stuff rest := by
  simp [stuff, h]

theorem stuff_data {b : Byte} (h : reserved b = false) (rest : List Byte) : stuff (b :: rest) = b :: stuff rest := by
  simp [stuff, h]

@[simp] theorem unstuff_escape (v : Byte) (rest : List Byte) :
    unstuff (0x7D#8 :: v :: rest) = escapeX v :: unstuff rest := by
  simp [unstuff]

theorem unstuff_data {b : Byte} (h : reserved b = false) (rest : List Byte) :
    unstuff (b :: rest) = b :: unstuff rest := by
  obtain ⟨hesc, _⟩ := (not_reserved_iff b).1 h
  cases rest with
  | nil => rfl
  | cons v rest => simp [unstuff, hesc]

theorem conformingItems_escape (v : Byte) (rest : List Byte) :
    conformingItems (0x7D#8 :: v :: rest) = true ↔ reserved (escapeX v) = true ∧ conformingItems rest = true := by
  simp [conformingItems, reserved_escapeX_iff, or_assoc]

theorem conformingItems_data {b : Byte} (h : reserved b = false) (rest : List Byte) :
    conformingItems (b :: rest) = true ↔ conformingItems rest = true := by
  obtain ⟨hesc, _⟩ := (not_reserved_iff b).1 h
  cases rest with
  | nil => simp [conformingItems, h]
  | cons v rest => simp [conformingItems, hesc, h]

theorem mem_stuff {c : Byte} {frame : List Byte} (h : c ∈ stuff frame) : c = 0x7D#8 ∨ reserved c = false := by
  induction frame with
  | nil => cases h
  | cons b rest ih =>
    cases hb : reserved b with
    | true =>
      simp only [stuff_reserved hb, List.mem_cons] at h
      rcases h with rfl | rfl | hrest
      · exact Or.inl rfl
      · exact Or.inr (reserved_escapeX hb)
      · exact ih hrest
    | false =>
      simp only [stuff_data hb, List.mem_cons] at h
      rcases h with rfl | hrest
      · exact Or.inr hb
      · exact ih hrest

theorem unstuff_stuff (frame : List Byte) : unstuff (stuff frame) = frame := by
  induction frame with
  | nil => rfl
  | cons b rest ih =>
    cases hb : reserved b with
    | true => simp [stuff_reserved hb, ih]
    | false => simp [stuff_data hb, unstuff_data hb, ih]

theorem conformingItems_stuff (frame : List Byte) : conformingItems (stuff frame) = true := by
  induction frame with
  | nil => rfl
  | cons b rest ih =>
    cases hb : reserved b with
    | true => simp [stuff_reserved hb, conformingItems_escape, hb, ih]
    | false => simp [stuff_data hb, conformingItems_data hb, ih]

/-- R52: every conforming body is a stuffed frame; the frame has one byte for each item. -/
theorem exists_stuff_of_conformingItems {body : List Byte} (h : conformingItems body = true) :
    ∃ frame, stuff frame = body := by
  induction body using conformingItems.induct with
  | case1 => exact ⟨[], rfl⟩
  | case2 b =>
    have hb : reserved b = false := by simpa [conformingItems] using h
    exact ⟨[b], stuff_data hb []⟩
  | case3 v rest ih =>
    obtain ⟨hv, hrest⟩ := (conformingItems_escape v rest).1 h
    obtain ⟨frame, rfl⟩ := ih hrest
    exact ⟨escapeX v :: frame, by simp [stuff_reserved hv]⟩
  | case4 b v rest hesc ih =>
    obtain ⟨hb, hrest⟩ : reserved b = false ∧ conformingItems (v :: rest) = true := by
      rw [ESC_eq] at hesc
      simpa [conformingItems, hesc] using h
    obtain ⟨frame, hframe⟩ := ih hrest
    exact ⟨b :: frame, by rw [stuff_data hb, hframe]⟩

theorem stuff_unstuff {body : List Byte} (h : conformingItems body = true) : stuff (unstuff body) = body := by
  obtain ⟨frame, rfl⟩ := exists_stuff_of_conformingItems h
  rw [unstuff_stuff]

/-- Settles O41: over a frame byte by byte, over a body item by item. -/
theorem unstuffUndoesStuff : Obligations.UnstuffUndoesStuff := by
  unfold Obligations.UnstuffUndoesStuff
  refine ⟨fun frame => ⟨unstuff_stuff frame, conformingItems_stuff frame, fun h => ?_, fun h => ?_⟩,
    fun _ => stuff_unstuff⟩
  · exact absurd (mem_stuff h) (by decide)
  · exact absurd (mem_stuff h) (by decide)

end Sys2Proof.Machine
end

section
/-! Proofs of the family 40_encoder.md: the three cases of `ENC.NEXT` (R71 to R73), the bytes it returns (R79), and its
run over a frame (R74 to R77). -/

namespace Sys2Proof.Machine

/-! ### The three cases (R71 to R73) -/

/-- Settles O13: at the guard the case selected is END, and the cursor stays at the bound. -/
theorem encEndReturnsFlag : Obligations.EncEndReturnsFlag := by
  unfold Obligations.EncEndReturnsFlag
  intro s hguard
  have hcase : perform .encNext s = exec .encNextEnd s := perform_encNext_of_cell (encCell_guard hguard)
  exact ⟨hcase ▸ perform_encNext_end hguard, fun k => encRun_end k hguard⟩

/-- R60: a data byte at the cursor selects the case LIT. -/
theorem perform_encNext_eq_lit {s : State} {b : Byte} (hne : s.encCur ≠ s.encEnd)
    (hb : s.memRead .tx s.encCur = some b) (hr : reserved b = false) :
    perform .encNext s = exec (.encNextLit b) s := by
  rw [perform_encNext_of_cell (encCell_cell hne hb), decodeEnc_data hr]

/-- Settles O15. -/
theorem encLitReturnsByte : Obligations.EncLitReturnsByte := by
  unfold Obligations.EncLitReturnsByte
  intro s b hne hb hesc hflag habort
  have hr : reserved b = false := (not_reserved_iff b).2 ⟨hesc, hflag, habort⟩
  rw [← perform_encNext_eq_lit hne hb hr]
  exact perform_encNext_lit hne hb hr

/-- R72: the state after the case STUFF with the byte `b` at the cursor. -/
def State.stuffed (s : State) (b : Byte) : State := encReturn 0x7D#8 (s.put .tx s.encCur (escapeX b))

section
variable (s : State) (b : Byte)
@[simp] theorem stuffed_encCur : (s.stuffed b).encCur = s.encCur := by simp [State.stuffed]
@[simp] theorem stuffed_encEnd : (s.stuffed b).encEnd = s.encEnd := by simp [State.stuffed]
@[simp] theorem stuffed_txBytes : (s.stuffed b).txBytes = s.txBytes ++ [0x7D#8] := by simp [State.stuffed]

theorem stuffed_sameDecoder : SameDecoder s (s.stuffed b) := by simp [SameDecoder, State.stuffed]

theorem stuffed_sameOutside : SameOutside s (s.stuffed b) := by simp [SameOutside, State.stuffed]

theorem stuffed_sameCellsBut : SameCellsBut .tx [s.encCur] s (s.stuffed b) :=
  sameCellsBut_of_put (escapeX b) (fun _ => encReturn_memRead ..)
end

theorem stuffed_memRead_cursor {s : State} {b : Byte} (hb : s.memRead .tx s.encCur = some b) :
    (s.stuffed b).memRead .tx s.encCur = some (escapeX b) := by
  rw [State.stuffed, encReturn_memRead]
  exact put_memRead_self s _ (memRead_lt hb)

/-- R72: the rewritten byte is a data byte, so the operation after the case STUFF is the case LIT. -/
theorem perform_encNext_stuffed {s : State} {b : Byte} (hne : s.encCur ≠ s.encEnd)
    (hb : s.memRead .tx s.encCur = some b) (hr : reserved b = true) :
    perform .encNext (s.stuffed b) = .next (encReturn (escapeX b) (s.stuffed b).advanceEnc) :=
  perform_encNext_lit (s := s.stuffed b) hne (stuffed_memRead_cursor hb) (reserved_escapeX hr)

/-- Settles O14: the three rows are those that a reserved byte at the cursor selects. -/
theorem encStuffRewritesInPlace : Obligations.EncStuffRewritesInPlace := by
  unfold Obligations.EncStuffRewritesInPlace
  intro s i b hrow hne hb
  obtain ⟨hr, hi⟩ : reserved b = true ∧ decodeEnc (some b) = i := by
    simp only [List.mem_cons, List.not_mem_nil, or_false, Prod.mk.injEq] at hrow
    rcases hrow with ⟨rfl, rfl⟩ | ⟨rfl, rfl⟩ | ⟨rfl, rfl⟩ <;> exact ⟨rfl, rfl⟩
  refine ⟨s.stuffed b, ?runs, stuffed_memRead_cursor hb, stuffed_sameCellsBut s b, stuffed_encCur s b,
    stuffed_encEnd s b, stuffed_txBytes s b, stuffed_sameDecoder s b, stuffed_sameOutside s b, ?literalNext⟩
  case runs =>
    rw [← hi, ← perform_encNext_of_cell (encCell_cell hne hb)]
    exact perform_encNext_stuff hne hb hr
  case literalNext =>
    exact perform_encNext_eq_lit (s := s.stuffed b) hne (stuffed_memRead_cursor hb) (reserved_escapeX hr)

/-! ### The bytes returned (R79) -/

/-- Settles O17, from the three outcomes of `ENC.NEXT`. -/
theorem encReturnsOnlyWireBytes : Obligations.EncReturnsOnlyWireBytes := by
  unfold Obligations.EncReturnsOnlyWireBytes
  intro s t h
  obtain ⟨i, hf, hi⟩ := perform_encNext_case h
  cases enc_outcome hf hi with
  | sent _ hguard => exact ⟨0x7E#8, rfl, by decide, by simpa using hguard, by simp [hguard], by simp⟩
  | stuffed b _ hr hne hb =>
    refine ⟨0x7D#8, stuffed_txBytes s b, by decide, by simpa using hne, ?reserved, fun _ => ?next⟩
    case reserved => simpa [hne, hb] using (reserved_iff b).1 hr
    case next =>
      refine ⟨_, escapeX b, perform_encNext_stuffed hne hb hr, rfl, ?_⟩
      exact (reserved_escapeX_iff (escapeX b)).1 (by simpa using hr)
  | literal b _ hr hne hb =>
    obtain ⟨hesc, hflag, habort⟩ := (not_reserved_iff b).1 hr
    refine ⟨b, rfl, habort, by simp [hne, hflag], ?notReserved, fun h => absurd h hesc⟩
    simp [hb, hesc, hflag, habort]

/-! ### Frames, byte by byte (R74 to R76) -/

theorem mutated_reserved {b : Byte} (h : reserved b = true) (rest : List Byte) :
    mutated (b :: rest) = escapeX b :: mutated rest := by
  simp [mutated, h]

theorem mutated_data {b : Byte} (h : reserved b = false) (rest : List Byte) :
    mutated (b :: rest) = b :: mutated rest := by
  simp [mutated, h]

@[simp] theorem length_mutated (frame : List Byte) : (mutated frame).length = frame.length := by
  simp [mutated]

theorem stuff_cons (b : Byte) (rest : List Byte) : stuff (b :: rest) = stuff [b] ++ stuff rest := by
  cases hb : reserved b with
  | true => rw [stuff_reserved hb, stuff_reserved hb]; rfl
  | false => rw [stuff_data hb, stuff_data hb]; rfl

/-- R75: a reserved byte is sent as two bytes, any other as one. -/
theorem length_stuff (frame : List Byte) : (stuff frame).length = frame.length + reservedCount frame := by
  induction frame with
  | nil => rfl
  | cons b rest ih =>
    cases hb : reserved b with
    | true => simp [stuff_reserved hb, reservedCount, hb, ih]; omega
    | false => simp [stuff_data hb, reservedCount, hb, ih]; omega

/-- R77: a frame once encoded has no reserved byte left. -/
theorem reserved_of_mem_mutated {c : Byte} {frame : List Byte} (h : c ∈ mutated frame) : reserved c = false := by
  obtain ⟨b, -, rfl⟩ := List.mem_map.1 h
  cases hb : reserved b with
  | true => simpa [hb] using reserved_escapeX hb
  | false => simp [hb]

/-- Without a reserved byte there is nothing to escape. -/
theorem stuff_eq_self {frame : List Byte} (h : ∀ c ∈ frame, reserved c = false) : stuff frame = frame := by
  induction frame with
  | nil => rfl
  | cons b rest ih =>
    obtain ⟨hb, hrest⟩ := List.forall_mem_cons.1 h
    rw [stuff_data hb, ih hrest]

/-- Without a reserved byte there is nothing to rewrite. -/
theorem mutated_eq_self {frame : List Byte} (h : ∀ c ∈ frame, reserved c = false) : mutated frame = frame := by
  induction frame with
  | nil => rfl
  | cons b rest ih =>
    obtain ⟨hb, hrest⟩ := List.forall_mem_cons.1 h
    rw [mutated_data hb, ih hrest]

/-! ### What a run leaves unchanged -/

theorem holds_cons {s : State} {sp : Space} {a : Nat} {b : Byte} {bytes : List Byte} :
    holds s sp a (b :: bytes) ↔ s.memRead sp a = some b ∧ holds s sp (a + 1) bytes := by
  constructor
  · intro h
    refine ⟨h 0 b rfl, fun i c hi => ?_⟩
    rw [Nat.add_assoc, Nat.add_comm 1]
    exact h (i + 1) c hi
  · rintro ⟨hb, hbytes⟩ i c hi
    cases i with
    | zero => simpa [← Option.some.inj hi] using hb
    | succ i =>
      rw [← Nat.add_assoc, Nat.add_right_comm]
      exact hbytes i c hi

theorem SameOutside.trans {s t u : State} (h : SameOutside s t) (h' : SameOutside t u) : SameOutside s u := by
  obtain ⟨hconfig, hrequests, hresets, hbacks⟩ := h
  obtain ⟨hconfig', hrequests', hresets', hbacks'⟩ := h'
  exact ⟨hconfig'.trans hconfig, hrequests'.trans hrequests, hresets'.trans hresets, hbacks'.trans hbacks⟩

theorem SameDecoder.trans {s t u : State} (h : SameDecoder s t) (h' : SameDecoder t u) : SameDecoder s u := by
  obtain ⟨hcur, hend, hcells, hresults⟩ := h
  obtain ⟨hcur', hend', hcells', hresults'⟩ := h'
  exact ⟨hcur'.trans hcur, hend'.trans hend, fun c => (hcells' c).trans (hcells c), hresults'.trans hresults⟩

/-- Of the cells at most the `n` of `TXBUF` from `a` changed, and nothing of the decoder or outside. -/
structure WindowOnly (a n : Nat) (s t : State) : Prop where
  cells : ∀ c, (c < a ∨ a + n ≤ c) → t.memRead .tx c = s.memRead .tx c
  decoder : SameDecoder s t
  outside : SameOutside s t

theorem WindowOnly.refl (a n : Nat) (s : State) : WindowOnly a n s s :=
  ⟨fun _ _ => rfl, by simp [SameDecoder], by simp [SameOutside]⟩

theorem WindowOnly.trans {a n : Nat} {s t u : State} (h : WindowOnly a n s t) (h' : WindowOnly a n t u) :
    WindowOnly a n s u :=
  ⟨fun c hc => (h'.cells c hc).trans (h.cells c hc), h.decoder.trans h'.decoder, h.outside.trans h'.outside⟩

theorem WindowOnly.mono {a n a' n' : Nat} {s t : State} (h : WindowOnly a n s t) (hlow : a' ≤ a)
    (hhigh : a + n ≤ a' + n') : WindowOnly a' n' s t :=
  ⟨fun c hc => h.cells c (by omega), h.decoder, h.outside⟩

/-! ### Runs of the encoder -/

theorem encRun_add (j k : Nat) (s : State) : encRun (j + k) s = andThen (encRun j s) (encRun k) := by
  rw [encRun, List.replicate_add, performAll_append]
  rfl

theorem encRun_one (s : State) : encRun 1 s = perform .encNext s := by
  cases h : perform .encNext s <;> simp [encRun, h]

/-- The encoder went from `s` to `t` over some cells of its window: it sent `out`, left `cells` in them, and stands
behind them. -/
structure Sent (out cells : List Byte) (s t : State) : Prop where
  bytes : t.txBytes = s.txBytes ++ out
  cursor : t.encCur = s.encCur + cells.length
  bound : t.encEnd = s.encEnd
  held : holds t .tx s.encCur cells
  only : WindowOnly s.encCur cells.length s t

theorem Sent.nil (s : State) : Sent [] [] s s :=
  ⟨by simp, rfl, rfl, by simp [holds], .refl ..⟩

/-- One cell, then those behind it, which are written later and leave the first as it is. -/
theorem Sent.cons {out out' cells : List Byte} {b : Byte} {s t u : State} (h : Sent out [b] s t)
    (h' : Sent out' cells t u) : Sent (out ++ out') (b :: cells) s u := by
  obtain ⟨hbytes, hcur, hend, hheld, honly⟩ := h
  obtain ⟨hbytes', hcur', hend', hheld', honly'⟩ := h'
  rw [List.length_singleton] at hcur honly
  rw [hcur] at hcur' hheld' honly'
  refine ⟨by rw [hbytes', hbytes, List.append_assoc], ?cursor, hend'.trans hend, holds_cons.2 ⟨?first, hheld'⟩, ?only⟩
  case cursor => rw [hcur', List.length_cons]; omega
  case first => rw [honly'.cells s.encCur (by omega)]; exact (holds_cons.1 hheld).1
  case only =>
    rw [List.length_cons]
    exact (honly.mono (by omega) (by omega)).trans (honly'.mono (by omega) (by omega))

/-- R73: one operation sends a data byte. -/
theorem encRun_data {s : State} {b : Byte} (hne : s.encCur ≠ s.encEnd) (hb : s.memRead .tx s.encCur = some b)
    (hr : reserved b = false) : ∃ t, encRun 1 s = .next t ∧ Sent [b] [b] s t := by
  refine ⟨encReturn b s.advanceEnc, by rw [encRun_one, perform_encNext_lit hne hb hr], rfl, rfl, rfl, ?held, ?only⟩
  case held => exact holds_cons.2 ⟨by simpa using hb, by simp [holds]⟩
  case only => exact ⟨fun c _ => by simp, by simp [SameDecoder], by simp [SameOutside]⟩

/-- R72, R73: two operations send a reserved byte, and leave it rewritten. -/
theorem encRun_reserved {s : State} {b : Byte} (hne : s.encCur ≠ s.encEnd) (hb : s.memRead .tx s.encCur = some b)
    (hr : reserved b = true) : ∃ t, encRun 2 s = .next t ∧ Sent [0x7D#8, escapeX b] [escapeX b] s t := by
  have hrun : encRun 2 s = .next (encReturn (escapeX b) (s.stuffed b).advanceEnc) := by
    rw [encRun_add 1 1, encRun_one, perform_encNext_stuff hne hb hr, andThen_next, encRun_one]
    exact perform_encNext_stuffed hne hb hr
  refine ⟨_, hrun, by simp, by simp, by simp, ?held, ?cells, ?decoder, ?outside⟩
  case held => exact holds_cons.2 ⟨by simpa using stuffed_memRead_cursor hb, by simp [holds]⟩
  case cells =>
    intro c hc
    rw [List.length_singleton] at hc
    simpa using stuffed_sameCellsBut s b c (by rw [List.mem_singleton]; omega)
  case decoder => exact (stuffed_sameDecoder s b).trans (by simp [SameDecoder])
  case outside => exact (stuffed_sameOutside s b).trans (by simp [SameOutside])

/-- R74, R76 for one byte. -/
theorem encRun_byte {s : State} {b : Byte} (hne : s.encCur ≠ s.encEnd) (hb : s.memRead .tx s.encCur = some b) :
    ∃ t, encRun (stuff [b]).length s = .next t ∧ Sent (stuff [b]) (mutated [b]) s t := by
  cases hr : reserved b with
  | true =>
    rw [stuff_reserved hr, mutated_reserved hr]
    exact encRun_reserved hne hb hr
  | false =>
    rw [stuff_data hr, mutated_data hr]
    exact encRun_data hne hb hr

/-- Behind a cell that the encoder has passed, the window holds what it held. -/
theorem Sent.holds_behind {out rest : List Byte} {b : Byte} {s t : State} (h : Sent out [b] s t)
    (hrest : holds s .tx (s.encCur + 1) rest) : holds t .tx t.encCur rest := by
  intro i c hi
  rw [h.cursor, h.only.cells _ (Or.inr (by omega))]
  exact hrest i c hi

/-- R74: over cells of its window that hold a frame, the encoder sends the stuffed frame. -/
theorem encRun_stuff {frame : List Byte} {s : State} (hfit : s.encCur + frame.length ≤ s.encEnd)
    (hheld : holds s .tx s.encCur frame) :
    ∃ t, encRun (stuff frame).length s = .next t ∧ Sent (stuff frame) (mutated frame) s t := by
  induction frame generalizing s with
  | nil => exact ⟨s, rfl, .nil s⟩
  | cons b rest ih =>
    obtain ⟨hb, hrest⟩ := holds_cons.1 hheld
    rw [List.length_cons] at hfit
    obtain ⟨t, ht, hfirst⟩ := encRun_byte (by omega) hb
    have hfit' : t.encCur + rest.length ≤ t.encEnd := by
      rw [hfirst.cursor, hfirst.bound, length_mutated, List.length_singleton]
      omega
    obtain ⟨u, hu, hlater⟩ := ih hfit' (hfirst.holds_behind hrest)
    rw [stuff_cons, List.length_append, encRun_add, ht]
    exact ⟨u, hu, hfirst.cons hlater⟩

/-! ### The host puts a frame before the encoder (R100, R107) -/

theorem perform_encLoad {s : State} {a e : Nat} (hle : a ≤ e) (hfit : e ≤ s.config.txSize) :
    perform (.host (.encLoad a e)) s = .next (s.setEncWindow a e) :=
  if_pos ⟨hle, hfit⟩

/-- R107: a frame that fits is written to its cells and loaded. -/
theorem perform_txFrame {s : State} {a : Nat} {frame : List Byte} (hfit : a + frame.length ≤ s.config.txSize) :
    ∃ t, perform (.host (.txFrame a frame)) s = .next t ∧ t.encCur = a ∧ t.encEnd = a + frame.length ∧
      t.txBytes = s.txBytes ∧ holds t .tx a frame ∧ WindowOnly a frame.length s t := by
  obtain ⟨w, hw⟩ := writeFrame_fits (s := s) hfit
  obtain ⟨heq, hheld, hcells, -, -⟩ := writeFrame_next hw
  have hload : execEncLoad a (a + frame.length) w = .next (w.setEncWindow a (a + frame.length)) := by
    rw [heq]
    exact if_pos ⟨Nat.le_add_right .., hfit⟩
  refine ⟨w.setEncWindow a (a + frame.length), ?runs, rfl, rfl, ?bytes, ?held, ?cells, ?decoder, ?outside⟩
  case runs =>
    change andThen (writeFrame a frame s) (execEncLoad a (a + frame.length)) = _
    rw [hw, andThen_next, hload]
  case bytes => rw [heq]; rfl
  case held => exact fun i b hi => by simpa using hheld i b hi
  case cells => exact fun c hc => by simpa using hcells c hc
  case decoder =>
    rw [heq]
    exact ⟨rfl, rfl, fun c => memRead_rx_congr rfl rfl rfl c, rfl⟩
  case outside =>
    rw [heq]
    exact ⟨rfl, rfl, rfl, rfl⟩

/-- Settles O18: the load, the body by `encRun_stuff`, and `FLAG` for every operation at the bound. -/
theorem encoderSendsStuffedFrame : Obligations.EncoderSendsStuffedFrame := by
  unfold Obligations.EncoderSendsStuffedFrame
  intro s a m frame hfit
  refine ⟨length_stuff frame, ?_⟩
  obtain ⟨l, hl, hcur, hend, hbytes, hheld, honly⟩ := perform_txFrame hfit
  rw [← hcur] at hheld
  obtain ⟨t, ht, hsent⟩ := encRun_stuff (by omega) hheld
  obtain ⟨hbytes', hcur', hend', hheld', honly'⟩ := hsent
  rw [hcur] at hcur' hheld' honly'
  rw [length_mutated] at hcur' honly'
  obtain ⟨hcells, hdec, hout⟩ := honly.trans honly'
  have hrun : encRun (frame.length + reservedCount frame + m) l =
      .next { t with txBytes := t.txBytes ++ List.replicate m 0x7E#8 } := by
    rw [← length_stuff, encRun_add, ht, andThen_next, encRun_end m (by omega)]
  refine ⟨{ t with txBytes := t.txBytes ++ List.replicate m 0x7E#8 }, ?runs, ?bytes, hcur', hend'.trans hend, hheld',
    hcells, hdec, hout⟩
  case runs =>
    rw [performAll_cons, hl]
    exact hrun
  case bytes => rw [hbytes', hbytes]

/-- Settles O19: the window holds a frame with no reserved byte, which is its own stuffed and its own rewritten form. -/
theorem secondPassSendsRewrittenBytes : Obligations.SecondPassSendsRewrittenBytes := by
  unfold Obligations.SecondPassSendsRewrittenBytes
  intro s a frame hfit hheld
  have hdata : ∀ c ∈ mutated frame, reserved c = false := fun _ => reserved_of_mem_mutated
  obtain ⟨t, ht, hsent⟩ := encRun_stuff (frame := mutated frame) (s := s.setEncWindow a (a + frame.length))
    (by simp) (fun i b hi => by simpa using hheld i b hi)
  rw [stuff_eq_self hdata, length_mutated] at ht
  rw [stuff_eq_self hdata, mutated_eq_self hdata] at hsent
  obtain ⟨hbytes, hcur, -, hheld', hcells, hdec, hout⟩ := hsent
  rw [length_mutated] at hcur hcells
  refine ⟨t, ?runs, hbytes, hcur, fun c _ => ?cell, ?decoder, hout⟩
  case runs =>
    rw [performAll_cons, perform_encLoad (Nat.le_add_right ..) hfit]
    exact ht
  case cell =>
    by_cases hc : a ≤ c ∧ c < a + frame.length
    · obtain ⟨i, rfl⟩ := Nat.exists_eq_add_of_le hc.1
      have hi : i < (mutated frame).length := by rw [length_mutated]; omega
      rw [hheld i _ (List.getElem?_eq_getElem hi)]
      exact hheld' i _ (List.getElem?_eq_getElem hi)
    · simpa using hcells c (by simp only [setEncWindow_encCur]; omega)
  case decoder => simpa [SameDecoder] using hdec

end Sys2Proof.Machine
end

section
/-! Proofs of the family 41_decoder.md: the eight cases of `DEC.ACCEPT` (R81 to R89), the results they repeat (R81, R85,
R86, R88, R92), the corrected state table (R91), and where `INIT` and `READY` differ (R93). -/

namespace Sys2Proof.Machine

/-! ### The case that is selected, and results that repeat -/

/-- R61: an instruction that the state register and the byte decode to does what `DEC.ACCEPT` does. -/
theorem exec_eq_perform_decAccept {s : State} {st val : Byte} {i : Instr} (hne : s.decCur ≠ s.decEnd)
    (hst : s.memRead .rx s.decCur = some st) (hi : decodeDec (some st) val = i) :
    exec i s = perform (.decAccept val) s := by
  rw [perform_decAccept_cell val hne hst, hi]

/-- R61: the two rows of a byte that `INIT` and `READY` have each a row for. -/
theorem decodeDec_of_row {st val : Byte} {i iInit iReady : Instr}
    (hinit : decodeDec (some 0x00#8) val = iInit) (hready : decodeDec (some 0x7E#8) val = iReady)
    (hrow : (i, st) ∈ [(iInit, 0x00#8), (iReady, 0x7E#8)]) :
    (st = 0x00#8 ∨ st = 0x7E#8) ∧ decodeDec (some st) val = i := by
  simp only [List.mem_cons, List.not_mem_nil, or_false, Prod.mk.injEq] at hrow
  rcases hrow with ⟨rfl, rfl⟩ | ⟨rfl, rfl⟩
  · exact ⟨Or.inl rfl, hinit⟩
  · exact ⟨Or.inr rfl, hready⟩

/-- When each byte of `w`, met in the state register `st`, gets the result `r` and writes nothing, so does the whole of
`w`, since every byte of it meets the same state register. -/
theorem decFeed_repeats {st : Byte} {r : Result} {w : List Byte}
    (hkeep : ∀ t : State, t.decCur ≠ t.decEnd → t.memRead .rx t.decCur = some st →
      ∀ val ∈ w, perform (.decAccept val) t = .next (decReturn r t))
    {s : State} (hne : s.decCur ≠ s.decEnd) (hst : s.memRead .rx s.decCur = some st) :
    decFeed w s = .next { s with decResults := s.decResults ++ List.replicate w.length r } := by
  induction w generalizing s with
  | nil => simp [decFeed]
  | cons val w ih =>
    have hnext : decFeed (val :: w) s = decFeed w (decReturn r s) := by
      simp [decFeed, hkeep s hne hst val List.mem_cons_self]
    have hrest := ih (fun t hne hst v hv => hkeep t hne hst v (List.mem_cons_of_mem _ hv))
      (s := decReturn r s) hne (by simpa using hst)
    rw [hnext, hrest, List.length_cons, List.replicate_succ]
    simp [decReturn]

/-- R88: an illegal state aborts every byte. -/
theorem decFeed_corrupt {s : State} {st : Byte} (w : List Byte) (hne : s.decCur ≠ s.decEnd)
    (hst : s.memRead .rx s.decCur = some st) (hl : legalState st = false) :
    decFeed w s = .next { s with decResults := s.decResults ++ List.replicate w.length .abort } :=
  decFeed_repeats (fun _ hne hst val _ => perform_decAccept_corrupt val hne hst hl) hne hst

/-- R92: in `READY` every further `FLAG` completes the frame again. -/
theorem decFeed_done {s : State} (k : Nat) (hne : s.decCur ≠ s.decEnd)
    (hst : s.memRead .rx s.decCur = some 0x7E#8) :
    decFeed (List.replicate k 0x7E#8) s =
      .next { s with decResults := s.decResults ++ List.replicate k .frameComplete } := by
  have hrepeat := decFeed_repeats (r := .frameComplete) (w := List.replicate k 0x7E#8)
    (fun _ hne hst val hval => List.eq_of_mem_replicate hval ▸ perform_decAccept_done hne hst) hne hst
  rwa [List.length_replicate] at hrepeat

/-! ### The cases that write nothing (R81, R83, R85, R88) -/

/-- Settles O20: at the guard the case selected is EXH, and the cursor stays at the bound. -/
theorem decExhReturnsAbort : Obligations.DecExhReturnsAbort := by
  unfold Obligations.DecExhReturnsAbort
  intro s hguard
  refine ⟨fun val => ?once, fun w => decFeed_exh w hguard⟩
  have hcase : perform (.decAccept val) s = exec (.decAcceptExh val) s :=
    perform_decAccept_of_state val (decState_guard hguard)
  exact hcase ▸ perform_decAccept_exh val hguard

/-- Settles O22. -/
theorem decSkipIgnoresFlag : Obligations.DecSkipIgnoresFlag := by
  unfold Obligations.DecSkipIgnoresFlag
  intro s hne hst
  rw [exec_eq_perform_decAccept (i := .decAcceptSkip) (val := 0x7E#8) hne hst rfl]
  exact perform_decAccept_skip hne hst

/-- Settles O24. -/
theorem decDoneCompletesFrame : Obligations.DecDoneCompletesFrame := by
  unfold Obligations.DecDoneCompletesFrame
  intro s hne hst
  refine ⟨?once, fun k => decFeed_done k hne hst⟩
  rw [exec_eq_perform_decAccept (i := .decAcceptDone) (val := 0x7E#8) hne hst rfl]
  exact perform_decAccept_done hne hst

/-- Settles O27. -/
theorem decCorruptReturnsAbort : Obligations.DecCorruptReturnsAbort := by
  unfold Obligations.DecCorruptReturnsAbort
  intro s st hne hst hinit hready hesc
  have hillegal : legalState st = false := by simp [legalState, hinit, hready, hesc]
  refine ⟨fun val => ?once, fun w => decFeed_corrupt w hne hst hillegal⟩
  have hrow : decodeDec (some st) val = .decAcceptCorrupt st val := by simp [decodeDec_some, hinit, hready, hesc]
  rw [exec_eq_perform_decAccept hne hst hrow]
  exact perform_decAccept_corrupt val hne hst hillegal

/-! ### The cases that write a marker (R84, R86) -/

/-- R20: the view of a state register. -/
def cellView (st : Byte) : DView :=
  if st = 0x00#8 then .init else if st = 0x7E#8 then .ready else if st = 0x7D#8 then .escPending else .corrupt

theorem dview_guard {s : State} (h : s.decCur = s.decEnd) : dview s = .exhausted := by
  simp [dview, h]

theorem dview_cell {s : State} {st : Byte} (hne : s.decCur ≠ s.decEnd)
    (hst : s.memRead .rx s.decCur = some st) : dview s = cellView st := by
  simp [dview, cellView, hne, hst]

theorem markerWritten_put {s : State} (v : Byte) (r : Result) (hne : s.decCur ≠ s.decEnd)
    (hlt : s.decCur < s.size .rx) : MarkerWritten v r s (decReturn r (s.put .rx s.decCur v)) := by
  obtain ⟨hend, henc, hout, -⟩ := (DecOutcome.marker v r hlt hne).frame
  refine ⟨?written, sameCellsBut_of_put v (fun c => decReturn_memRead ..), by simp, hend, by simp, henc, hout⟩
  rw [decReturn_memRead, put_memRead_self s v hlt]

/-- A marker leaves the decoder off its bound, with the marker as its state register. -/
theorem MarkerWritten.state {v : Byte} {r : Result} {s t : State} (h : MarkerWritten v r s t)
    (hne : s.decCur ≠ s.decEnd) : t.decCur ≠ t.decEnd ∧ t.memRead .rx t.decCur = some v := by
  obtain ⟨hwritten, -, hcur, hend, -⟩ := h
  rw [hcur, hend]
  exact ⟨hne, hwritten⟩

theorem MarkerWritten.dview_eq {v : Byte} {r : Result} {s t : State} (h : MarkerWritten v r s t)
    (hne : s.decCur ≠ s.decEnd) : dview t = cellView v :=
  dview_cell (h.state hne).1 (h.state hne).2

/-- Settles O23: the two rows are those that `ESC` selects in `INIT` and in `READY`. -/
theorem decEscinWritesMarker : Obligations.DecEscinWritesMarker := by
  unfold Obligations.DecEscinWritesMarker
  intro s i st hrow hne hst
  obtain ⟨hl, hi⟩ := decodeDec_of_row (val := 0x7D#8) rfl rfl hrow
  rw [exec_eq_perform_decAccept hne hst hi, perform_decAccept_escin hne hst hl]
  have hmark := markerWritten_put 0x7D#8 .pending hne (memRead_lt hst)
  exact ⟨_, rfl, hmark, hmark.dview_eq hne⟩

/-- Settles O25: the two rows are those that `ABORT` selects in `INIT` and in `READY`; the marker is an illegal
state. -/
theorem decSabortWritesAbort : Obligations.DecSabortWritesAbort := by
  unfold Obligations.DecSabortWritesAbort
  intro s i st hrow hne hst
  obtain ⟨hl, hi⟩ := decodeDec_of_row (val := 0x7F#8) rfl rfl hrow
  rw [exec_eq_perform_decAccept hne hst hi, perform_decAccept_sabort hne hst hl]
  have hmark := markerWritten_put 0x7F#8 .abort hne (memRead_lt hst)
  obtain ⟨hne', hst'⟩ := hmark.state hne
  exact ⟨_, rfl, hmark, hne', hmark.dview_eq hne, fun w => decFeed_corrupt w hne' hst' rfl⟩

/-! ### The cases that store a data byte (R82, R87, R89) -/

theorem dataStored_of_next {v : Byte} {s t : State} (hne : s.decCur ≠ s.decEnd)
    (h : storeAndAdvance v s = .next t) : DataStored v s t := by
  obtain ⟨hlt, ⟨hfull, rfl⟩ | ⟨hroom, hlt', rfl⟩⟩ := storeAndAdvance_next h
  · have hout := DecOutcome.full v hlt hne hfull
    obtain ⟨hend, henc, houtside, -⟩ := hout.frame
    have hcells := hout.sameCellsBut
    rw [if_pos hfull] at hcells
    refine ⟨by simp [put_memRead_self s v hlt], by simp, hend, ?_, henc, houtside⟩
    rw [if_pos hfull]
    exact ⟨by simp, hcells⟩
  · have hout := DecOutcome.room v hlt hne hroom hlt'
    obtain ⟨hend, henc, houtside, -⟩ := hout.frame
    have hcells := hout.sameCellsBut
    rw [if_neg hroom] at hcells
    have hread := put_memRead (s.put .rx s.decCur v).advanceDec 0x7E#8 (sp := .rx) (by simpa using hlt')
    refine ⟨by simp [hread, put_memRead_self s v hlt], by simp, hend, ?_, henc, houtside⟩
    rw [if_neg hroom]
    exact ⟨by simp, by simp [hread], hcells⟩

/-- Below the bound of a window that fits the buffer a data byte is stored. -/
theorem storeAndAdvance_stores {s : State} (v : Byte) (hs : s.WindowsOk) (hne : s.decCur ≠ s.decEnd) :
    ∃ t, storeAndAdvance v s = .next t ∧ DataStored v s t := by
  obtain ⟨_, _, hcur, hend⟩ := hs
  obtain ⟨t, ht⟩ := DecAction.run_answers (.data v) (by omega) hend
  exact ⟨t, ht, dataStored_of_next hne ht⟩

/-- Settles O21: the three rows are those that a byte after an `ESC` selects. -/
theorem decUnescStoresByte : Obligations.DecUnescStoresByte := by
  unfold Obligations.DecUnescStoresByte
  intro s val i hs hne hst hi
  have hrow : decodeDec (some 0x7D#8) val = i := by rw [decodeDec_some, if_pos rfl, hi]
  rw [exec_eq_perform_decAccept hne hst hrow, perform_decAccept_unesc val hne hst]
  split
  · rfl
  · exact storeAndAdvance_stores (escapeX val) hs hne

/-- Settles O26: the two rows are those that an unreserved byte selects in `INIT` and in `READY`. -/
theorem decDataStoresByte : Obligations.DecDataStoresByte := by
  unfold Obligations.DecDataStoresByte
  intro s i st val hrow hs hne hst hesc hflag habort
  have hinit : decodeDec (some 0x00#8) val = .decAcceptDataInit val := by simp [decodeDec_some, hesc, hflag, habort]
  have hready : decodeDec (some 0x7E#8) val = .decAcceptDataReady val := by simp [decodeDec_some, hesc, hflag, habort]
  obtain ⟨hl, hi⟩ := decodeDec_of_row hinit hready hrow
  rw [exec_eq_perform_decAccept hne hst hi,
    perform_decAccept_data hne hst hl ((not_reserved_iff val).2 ⟨hesc, hflag, habort⟩)]
  exact storeAndAdvance_stores val hs hne

/-! ### The corrected state table (R91) -/

/-- The entry of the state table that an action makes, in a view that it leaves unless it writes. -/
def DecAction.entry (last : Bool) (view : DView) : DecAction → Result × DView
  | .answer r => (r, view)
  | .done => (.frameComplete, view)
  | .mark v r => (r, cellView v)
  | .data _ => if last then (.abort, .exhausted) else (.pending, .ready)

/-- R91 from R80: the entry of the table is that of the action, the tests of `decAction` in their order. -/
theorem stateTable_cellView (policy : EscReservedPolicy) (last : Bool) (st val : Byte) :
    stateTable policy last val (cellView st) = (decAction policy st val).entry last (cellView st) := by
  unfold decAction
  split_ifs with hesc hpolicy hl hflag hinit hescIn habort
  · subst hesc; simp [cellView, stateTable, DecAction.entry, hpolicy]
  · subst hesc; simp [cellView, stateTable, DecAction.entry, hpolicy]
  · subst hflag hinit; rfl
  · subst hflag
    obtain rfl := hl.resolve_left hinit
    rfl
  · subst hescIn; rcases hl with rfl | rfl <;> rfl
  · subst habort; rcases hl with rfl | rfl <;> rfl
  · rcases hl with rfl | rfl <;> simp [cellView, stateTable, DecAction.entry, hflag, hescIn, habort]
  · obtain ⟨hinit, hready⟩ := not_or.1 hl
    simp [cellView, stateTable, DecAction.entry, hesc, hinit, hready]

/-- R89: after a data byte the decoder has aborted at its bound or stands on a fresh marker. -/
theorem DataStored.entry {v : Byte} {s t : State} (h : DataStored v s t) :
    t.decResults = s.decResults ++ [if s.decCur + 1 = s.decEnd then .abort else .pending] ∧
      dview t = if s.decCur + 1 = s.decEnd then .exhausted else .ready := by
  obtain ⟨-, hcur, hend, hadvance, -⟩ := h
  by_cases hfull : s.decCur + 1 = s.decEnd
  · simp only [if_pos hfull] at hadvance ⊢
    obtain ⟨hresult, -⟩ := hadvance
    exact ⟨hresult, dview_guard (by rw [hcur, hend, hfull])⟩
  · simp only [if_neg hfull] at hadvance ⊢
    obtain ⟨hresult, hmarker, -⟩ := hadvance
    exact ⟨hresult, dview_cell (by rwa [hcur, hend]) (by rwa [hcur])⟩

/-- Below the bound of a window that fits the buffer an action makes its entry. -/
theorem DecAction.run_entry {s : State} (x : DecAction) (hs : s.WindowsOk) (hne : s.decCur ≠ s.decEnd) :
    ∃ t, x.run s = .next t ∧
      t.decResults = s.decResults ++ [(x.entry (decide (s.decCur + 1 = s.decEnd)) (dview s)).1] ∧
      dview t = (x.entry (decide (s.decCur + 1 = s.decEnd)) (dview s)).2 := by
  have ⟨_, _, hcur, hend⟩ := hs
  cases x with
  | answer r => exact ⟨_, rfl, rfl, dview_decReturn r s⟩
  | done => exact ⟨_, rfl, rfl, dview_decReturn .frameComplete s⟩
  | mark v r =>
    have hlt : s.decCur < s.size .rx := by omega
    exact ⟨_, run_mark v r hlt, by simp [entry], (markerWritten_put v r hne hlt).dview_eq hne⟩
  | data v =>
    obtain ⟨t, ht, hstored⟩ := storeAndAdvance_stores v hs hne
    refine ⟨t, ht, ?_⟩
    obtain ⟨hresult, hview⟩ := hstored.entry
    by_cases hfull : s.decCur + 1 = s.decEnd <;> simpa [entry, hfull] using And.intro hresult hview

/-- Settles O29: the guard has its own line; below it the line is that of the action. -/
theorem decStateTable : Obligations.DecStateTable := by
  unfold Obligations.DecStateTable
  intro s val hs
  by_cases hguard : s.decCur = s.decEnd
  · rw [perform_decAccept_exh val hguard, dview_guard hguard]
    exact ⟨_, rfl, rfl, by rw [dview_decReturn, dview_guard hguard]; rfl⟩
  · have ⟨_, _, hcur, hend⟩ := hs
    obtain ⟨st, hst⟩ := memRead_of_lt (s := s) (sp := .rx) (a := s.decCur) (by omega)
    have hrun := (decAction s.config.policy st val).run_entry hs hguard
    rwa [dview_cell hguard hst, ← stateTable_cellView, ← dview_cell hguard hst,
      ← perform_decAccept_action val hguard hst] at hrun

/-! ### `INIT` and `READY` (R93) -/

theorem insert_insert_self (m : Memory) (a : Nat) (v w : Byte) : (m.insert a v).insert a w = m.insert a w := by
  induction m with
  | nil => simp [Memory.insert]
  | cons cell m ih =>
    obtain ⟨b, x⟩ := cell
    by_cases hlt : a < b
    · simp [Memory.insert, hlt]
    · by_cases heq : a = b
      · simp [Memory.insert, heq]
      · simp [Memory.insert, hlt, heq, ih]

/-- A write hides an earlier one to the same cell. -/
theorem put_put_self (s : State) (sp : Space) (a : Nat) (v w : Byte) : (s.put sp a v).put sp a w = s.put sp a w := by
  cases sp <;> simp [State.put, State.setMem, insert_insert_self]

theorem store_put_self (s : State) (sp : Space) (a : Nat) (v w : Byte) :
    store sp a w (s.put sp a v) = store sp a w s := by
  rw [store_eq, store_eq, put_size, put_put_self]

/-- Storing a data byte hides what the cell held. -/
theorem storeAndAdvance_put (s : State) (v w : Byte) :
    storeAndAdvance w (s.put .rx s.decCur v) = storeAndAdvance w s := by
  rw [storeAndAdvance, put_decCur, store_put_self, storeAndAdvance]

/-- Writing a marker hides what the cell held. -/
theorem DecAction.run_mark_put (s : State) (v w : Byte) (r : Result) :
    (DecAction.mark w r).run (s.put .rx s.decCur v) = (DecAction.mark w r).run s := by
  rw [run, put_decCur, store_put_self, run]

/-- R80: the tests on a byte other than `FLAG`, which `INIT` and `READY` share. -/
theorem decAction_of_ready {policy : EscReservedPolicy} {st val : Byte} (hl : st = 0x00#8 ∨ st = 0x7E#8)
    (hflag : val ≠ 0x7E#8) :
    decAction policy st val =
      if val = 0x7D#8 then .mark 0x7D#8 .pending
      else if val = 0x7F#8 then .mark 0x7F#8 .abort
      else .data val := by
  rcases hl with rfl | rfl <;> simp [decAction, hflag]

/-- A byte other than `FLAG` overwrites the state register of `INIT` or of `READY`: its action does the same as where
that register has not been put. -/
theorem perform_decAccept_put {s : State} {st val : Byte} (hne : s.decCur ≠ s.decEnd)
    (hlt : s.decCur < s.size .rx) (hl : st = 0x00#8 ∨ st = 0x7E#8) (hflag : val ≠ 0x7E#8) :
    perform (.decAccept val) (s.put .rx s.decCur st) = (decAction s.config.policy st val).run s := by
  rw [perform_decAccept_action (s := s.put .rx s.decCur st) val hne (put_memRead_self s st hlt), put_config,
    decAction_of_ready hl hflag]
  split_ifs
  · exact DecAction.run_mark_put s st 0x7D#8 .pending
  · exact DecAction.run_mark_put s st 0x7F#8 .abort
  · exact storeAndAdvance_put s st val

/-- Settles O34: any byte but `FLAG` has the same action in both, and that action overwrites the state register. -/
theorem initAndReadyDifferOnFlagOnly : Obligations.InitAndReadyDifferOnFlagOnly := by
  unfold Obligations.InitAndReadyDifferOnFlagOnly
  intro s val hne hlt inInit inReady
  refine ⟨fun hflag => ?sameOutcome, ?skip, ?done⟩
  case sameOutcome =>
    rw [perform_decAccept_put hne hlt (Or.inl rfl) hflag, perform_decAccept_put hne hlt (Or.inr rfl) hflag,
      decAction_of_ready (Or.inl rfl) hflag, decAction_of_ready (Or.inr rfl) hflag]
  case skip => exact perform_decAccept_skip (s := inInit) hne (put_memRead_self s 0x00#8 hlt)
  case done => exact perform_decAccept_done (s := inReady) hne (put_memRead_self s 0x7E#8 hlt)

end Sys2Proof.Machine
end

section
/-! Proofs of the family 42_host_ops.md: the step (R110), the host operations one by one (R100 to R106, R108), the two
that are made of them (R107, R109), and what all of them and `RESET` leave unchanged (R170). -/

namespace Sys2Proof.Machine

/-! ### A step (R110) -/

theorem step_of_requests {s : State} {r : Request} {rest : List Request} (h : s.requests = r :: rest) :
    step s = perform r { s with requests := rest } := by
  simp [step, performNext, h]

/-- Settles O7. -/
theorem stepRunsDecodedInstruction : Obligations.StepRunsDecodedInstruction := by
  unfold Obligations.StepRunsDecodedInstruction
  rintro s r rest sel i hreq hsel rfl -
  rw [step_of_requests hreq, perform_of_select hsel]

/-! ### What a load, a write and a returned value leave unchanged -/

section
variable (s : State)

theorem setEncWindow_sameDecoder (a e : Nat) : SameDecoder s (s.setEncWindow a e) := by simp [SameDecoder]

theorem setEncWindow_sameOutside (a e : Nat) : SameOutside s (s.setEncWindow a e) := by simp [SameOutside]

theorem setDecWindow_sameEncoder (a e : Nat) : SameEncoder s (s.setDecWindow a e) := by simp [SameEncoder]

theorem setDecWindow_sameOutside (a e : Nat) : SameOutside s (s.setDecWindow a e) := by simp [SameOutside]

theorem put_tx_sameDecoder (a : Nat) (v : Byte) : SameDecoder s (s.put .tx a v) := by simp [SameDecoder]

theorem put_rx_sameEncoder (a : Nat) (v : Byte) : SameEncoder s (s.put .rx a v) := by simp [SameEncoder]

theorem put_sameOutside (sp : Space) (a : Nat) (v : Byte) : SameOutside s (s.put sp a v) := by simp [SameOutside]

theorem put_sameCellsBut (sp : Space) (a : Nat) (v : Byte) : SameCellsBut sp [a] s (s.put sp a v) :=
  sameCellsBut_of_put v (fun _ => rfl)

theorem hostReturn_sameUnits (v : ReadBack) :
    SameEncoder s (hostReturn v s) ∧ SameDecoder s (hostReturn v s) := by simp [SameEncoder, SameDecoder]
end

/-- An operation that is refused outside its precondition answers a next state only within it. -/
theorem ite_refused_eq_next {p : Prop} [Decidable p] {s t : State} {r : Refusal} :
    (if p then (.next s : Out) else .refused r) = .next t ↔ p ∧ t = s := by
  split <;> simp_all [eq_comm]

/-! ### The loads (R100, R101) -/

theorem execEncLoad_next {a e : Nat} {s t : State} (h : execEncLoad a e s = .next t) :
    (a ≤ e ∧ e ≤ s.size .tx) ∧ t = s.setEncWindow a e :=
  ite_refused_eq_next.1 h

theorem execDecLoad_next {a e : Nat} {s t : State} (h : execDecLoad a e s = .next t) :
    (a ≤ e ∧ e ≤ s.size .rx) ∧ t = s.setDecWindow a e :=
  ite_refused_eq_next.1 h

/-- Settles O49. -/
theorem encLoadSetsWindow : Obligations.EncLoadSetsWindow := by
  unfold Obligations.EncLoadSetsWindow
  exact fun _ _ _ => ⟨fun h => if_pos h, fun h => if_neg h⟩

/-- Settles O50. -/
theorem decLoadSetsWindow : Obligations.DecLoadSetsWindow := by
  unfold Obligations.DecLoadSetsWindow
  exact fun _ _ _ => ⟨fun h => if_pos h, fun h => if_neg h⟩

/-! ### One cell (R102 to R105) -/

theorem hostWrite_of_lt {sp : Space} {a : Nat} {s : State} (v : Byte) (h : a < s.size sp) :
    hostWrite sp a v s = .next (s.put sp a v) := by
  rw [hostWrite_eq, if_pos h]

theorem hostWrite_refused {sp : Space} {a : Nat} {s : State} (v : Byte) (h : s.size sp ≤ a) :
    hostWrite sp a v s = .refused .addressOutOfRange := by
  rw [hostWrite_eq, if_neg (Nat.not_lt.2 h)]

theorem hostWrite_next {sp : Space} {a : Nat} {v : Byte} {s t : State} (h : hostWrite sp a v s = .next t) :
    a < s.size sp ∧ t = s.put sp a v :=
  ite_refused_eq_next.1 (hostWrite_eq sp a v s ▸ h)

/-- R34: a cell that exists is read. -/
theorem hostRead_of_lt {sp : Space} {a : Nat} {s : State} (h : a < s.size sp) :
    ∃ b, s.memRead sp a = some b ∧ hostRead sp a s = .next (hostReturn (.cell b) s) := by
  obtain ⟨b, hb⟩ := memRead_of_lt h
  exact ⟨b, hb, hostRead_of hb⟩

/-- R34: a read right after a write of the cell returns the byte written. -/
theorem hostRead_after_hostWrite {sp : Space} {a : Nat} {s : State} (v : Byte) (h : a < s.size sp) :
    andThen (hostWrite sp a v s) (hostRead sp a) = .next (hostReturn (.cell v) (s.put sp a v)) := by
  rw [hostWrite_of_lt v h, andThen_next, hostRead_of (put_memRead_self s v h)]

/-- The host's run of two operations is one after the other. -/
theorem performAll_two_next {r r' : Request} {s t : State} (h : andThen (perform r s) (perform r') = .next t) :
    performAll [r, r'] s = .next t := by
  obtain ⟨u, hu, ht⟩ := andThen_eq_next.1 h
  simp [hu, ht]

/-- Settles O51. -/
theorem txWriteStoresByte : Obligations.TxWriteStoresByte := by
  unfold Obligations.TxWriteStoresByte
  intro s a v
  refine ⟨fun ha => ?_, hostWrite_refused (sp := .tx) v⟩
  exact ⟨s.put .tx a v, hostWrite_of_lt v ha, put_memRead_self s v ha, put_sameCellsBut s .tx a v, by simp, by simp,
    by simp, put_tx_sameDecoder s a v, put_sameOutside s .tx a v⟩

/-- Settles O53. -/
theorem rxWriteStoresByte : Obligations.RxWriteStoresByte := by
  unfold Obligations.RxWriteStoresByte
  intro s a v
  refine ⟨fun ha => ?_, hostWrite_refused (sp := .rx) v⟩
  exact ⟨s.put .rx a v, hostWrite_of_lt v ha, put_memRead_self s v ha, put_sameCellsBut s .rx a v, by simp, by simp,
    by simp, put_rx_sameEncoder s a v, put_sameOutside s .rx a v⟩

/-- Settles O52. -/
theorem txReadReturnsCell : Obligations.TxReadReturnsCell := by
  unfold Obligations.TxReadReturnsCell
  intro s a
  refine ⟨hostRead_of_lt (sp := .tx), fun v ha => ?_, fun ha => hostRead_refused (Nat.not_lt.2 ha)⟩
  exact ⟨_, performAll_two_next (hostRead_after_hostWrite v ha), by simp⟩

/-- Settles O54. -/
theorem rxReadReturnsCell : Obligations.RxReadReturnsCell := by
  unfold Obligations.RxReadReturnsCell
  intro s a
  refine ⟨hostRead_of_lt (sp := .rx), fun v ha => ?_, fun ha => hostRead_refused (Nat.not_lt.2 ha)⟩
  exact ⟨_, performAll_two_next (hostRead_after_hostWrite v ha), by simp⟩

/-! ### The cursors (R108) -/

/-- Settles O55. -/
theorem cursorsReadBack : Obligations.CursorsReadBack := by
  unfold Obligations.CursorsReadBack
  exact fun _ => ⟨rfl, rfl, rfl⟩

/-! ### The seed (R106) -/

/-- R106: the state after `DEC.SEED`. -/
def State.seeded (s : State) : State := s.put .rx s.decCur 0x00#8

section
variable (s : State)
@[simp] theorem seeded_decCur : s.seeded.decCur = s.decCur := by simp [State.seeded]
@[simp] theorem seeded_decEnd : s.seeded.decEnd = s.decEnd := by simp [State.seeded]
@[simp] theorem seeded_decResults : s.seeded.decResults = s.decResults := by simp [State.seeded]

theorem seeded_sameCellsBut : SameCellsBut .rx [s.decCur] s s.seeded := put_sameCellsBut s .rx s.decCur 0x00#8

theorem seeded_sameEncoder : SameEncoder s s.seeded := put_rx_sameEncoder s s.decCur 0x00#8

theorem seeded_sameOutside : SameOutside s s.seeded := put_sameOutside s .rx s.decCur 0x00#8
end

theorem seeded_memRead_cursor {s : State} (hlt : s.decCur < s.size .rx) :
    s.seeded.memRead .rx s.decCur = some 0x00#8 :=
  put_memRead_self s 0x00#8 hlt

theorem dview_seeded {s : State} (hne : s.decCur ≠ s.decEnd) (hlt : s.decCur < s.size .rx) :
    dview s.seeded = .init := by
  rw [dview_eq_init, seeded_decCur, seeded_decEnd]
  exact ⟨hne, seeded_memRead_cursor hlt⟩

theorem execDecSeed_guard {s : State} (h : s.decCur = s.decEnd) : execDecSeed s = .refused .noCellToSeed :=
  if_pos h

theorem execDecSeed_cell {s : State} (hne : s.decCur ≠ s.decEnd) (hlt : s.decCur < s.size .rx) :
    execDecSeed s = .next s.seeded := by
  rw [execDecSeed, if_neg hne]
  exact hostWrite_of_lt 0x00#8 hlt

theorem execDecSeed_next {s t : State} (h : execDecSeed s = .next t) : t = s.seeded := by
  unfold execDecSeed at h
  split at h
  · cases h
  · exact (hostWrite_next h).2

/-- Settles O56: below its bound the cursor is a cell of the buffer. -/
theorem decSeedEntersInit : Obligations.DecSeedEntersInit := by
  unfold Obligations.DecSeedEntersInit
  refine fun s => ⟨fun hs hne => ?_, execDecSeed_guard⟩
  obtain ⟨-, -, hcur, hend⟩ := hs
  have hlt : s.decCur < s.size .rx := by omega
  exact ⟨s.seeded, execDecSeed_cell hne hlt, seeded_memRead_cursor hlt, dview_seeded hne hlt, seeded_sameCellsBut s,
    seeded_decCur s, seeded_decEnd s, seeded_decResults s, seeded_sameEncoder s, seeded_sameOutside s⟩

/-! ### `RX.OPEN` (R109) -/

/-- R109: the state after `RX.OPEN a, e`. -/
def State.opened (s : State) (a e : Nat) : State := (s.setDecWindow a e).seeded

section
variable (s : State) (a e : Nat)
theorem opened_sameCellsBut : SameCellsBut .rx [a] s (s.opened a e) := by
  simpa [SameCellsBut, State.opened] using seeded_sameCellsBut (s.setDecWindow a e)

theorem opened_sameEncoder : SameEncoder s (s.opened a e) := by
  simpa [SameEncoder, State.opened] using seeded_sameEncoder (s.setDecWindow a e)

theorem opened_sameOutside : SameOutside s (s.opened a e) :=
  (setDecWindow_sameOutside s a e).trans (seeded_sameOutside _)
end

theorem execRxOpen_next {a e : Nat} {s t : State} (h : execRxOpen a e s = .next t) : t = s.opened a e := by
  obtain ⟨u, hu, ht⟩ := andThen_eq_next.1 h
  obtain ⟨-, rfl⟩ := execDecLoad_next hu
  exact execDecSeed_next ht

theorem execRxOpen_loaded {a e : Nat} {s : State} (hle : a ≤ e) (hfit : e ≤ s.size .rx) :
    execRxOpen a e s = execDecSeed (s.setDecWindow a e) := by
  have hload : execDecLoad a e s = .next (s.setDecWindow a e) := if_pos ⟨hle, hfit⟩
  rw [execRxOpen, hload, andThen_next]

/-- Outside `a < e <= RX_SIZE` either the load is refused or, with `a = e`, the seed has no cell. -/
theorem execRxOpen_refused {a e : Nat} {s : State} (h : ¬ (a < e ∧ e ≤ s.size .rx)) :
    ∃ r, execRxOpen a e s = .refused r := by
  by_cases hload : a ≤ e ∧ e ≤ s.size .rx
  · have hempty : a = e := by omega
    exact ⟨.noCellToSeed, (execRxOpen_loaded hload.1 hload.2).trans (execDecSeed_guard hempty)⟩
  · have hrefused : execDecLoad a e s = .refused .loadOutOfRange := if_neg hload
    exact ⟨.loadOutOfRange, by rw [execRxOpen, hrefused, andThen_refused]⟩

/-- Settles O58. -/
theorem rxOpenLoadsAndSeeds : Obligations.RxOpenLoadsAndSeeds := by
  unfold Obligations.RxOpenLoadsAndSeeds
  refine fun s a e => ⟨fun ⟨hlt, hfit⟩ => ?_, execRxOpen_refused⟩
  have hne : (s.setDecWindow a e).decCur ≠ (s.setDecWindow a e).decEnd := Nat.ne_of_lt hlt
  have hcell : (s.setDecWindow a e).decCur < (s.setDecWindow a e).size .rx := Nat.lt_of_lt_of_le hlt hfit
  exact ⟨s.opened a e, (execRxOpen_loaded hlt.le hfit).trans (execDecSeed_cell hne hcell), by simp [State.opened],
    by simp [State.opened], seeded_memRead_cursor hcell, dview_seeded hne hcell, opened_sameCellsBut s a e,
    by simp [State.opened], opened_sameEncoder s a e, opened_sameOutside s a e⟩

/-! ### `TX.FRAME` (R107) -/

/-- The writes of a frame either all succeed or are refused: none of them faults. -/
theorem writeFrame_next_or_refused (a : Nat) (bytes : List Byte) (s : State) :
    (∃ t, writeFrame a bytes s = .next t) ∨ writeFrame a bytes s = .refused .addressOutOfRange := by
  induction bytes generalizing a s with
  | nil => exact Or.inl ⟨s, rfl⟩
  | cons b bytes ih =>
    by_cases ha : a < s.size .tx
    · rw [writeFrame, execTxWrite, hostWrite_of_lt b ha, andThen_next]
      exact ih (a + 1) (s.put .tx a b)
    · rw [writeFrame, execTxWrite, hostWrite_refused b (Nat.not_lt.1 ha)]
      exact Or.inr rfl

/-- A frame that does not fit is refused at a write or, when it is empty, at the load. -/
theorem execTxFrame_refused {a : Nat} {bytes : List Byte} {s : State} (h : s.config.txSize < a + bytes.length) :
    ∃ r, execTxFrame a bytes s = .refused r := by
  rcases writeFrame_next_or_refused a bytes s with ⟨w, hw⟩ | hw
  · obtain ⟨heq, -⟩ := writeFrame_next hw
    have hload : execEncLoad a (a + bytes.length) w = .refused .loadOutOfRange := by
      rw [heq]
      exact if_neg (fun hfit => Nat.not_le.2 h hfit.2)
    exact ⟨.loadOutOfRange, by rw [execTxFrame, hw, andThen_next, hload]⟩
  · exact ⟨.addressOutOfRange, by rw [execTxFrame, hw, andThen_refused]⟩

/-- Settles O57. -/
theorem txFrameWritesAndLoads : Obligations.TxFrameWritesAndLoads := by
  unfold Obligations.TxFrameWritesAndLoads
  refine fun s a bytes => ⟨fun hfit => ?_, execTxFrame_refused⟩
  obtain ⟨t, ht, hcur, hend, hbytes, hheld, honly⟩ := perform_txFrame hfit
  exact ⟨t, ht, hheld, hcur, hend, honly.cells, hbytes, honly.decoder, honly.outside⟩

/-- What a frame does when it answers a next state, which it does only when it fits. -/
theorem execTxFrame_next {a : Nat} {bytes : List Byte} {s t : State} (h : execTxFrame a bytes s = .next t) :
    WindowOnly a bytes.length s t ∧ t.txBytes = s.txBytes := by
  rcases Nat.lt_or_ge s.config.txSize (a + bytes.length) with hbig | hfit
  · obtain ⟨r, hr⟩ := execTxFrame_refused hbig
    rw [hr] at h
    cases h
  · obtain ⟨u, hu, -, -, hbytes, -, honly⟩ := perform_txFrame hfit
    cases hu.symm.trans h
    exact ⟨honly, hbytes⟩

/-! ### What all of them leave unchanged (R100 to R109, R170) -/

/-- The parameters, the waiting requests and the units' outputs, which no operation on the host port touches. -/
def KeepsOutputs (s t : State) : Prop :=
  t.config = s.config ∧ t.requests = s.requests ∧ t.txBytes = s.txBytes ∧ t.decResults = s.decResults

/-- Every operation on the host port keeps the outputs, and all but `RESET` the number of resets. -/
theorem exec_host_keepsOutputs {i : Instr} {s t : State} (hf : (encode i).format = .host) (h : exec i s = .next t) :
    KeepsOutputs s t ∧ (i ≠ .reset → t.resets = s.resets) := by
  cases i with
  | encLoad a e => obtain ⟨-, rfl⟩ := execEncLoad_next h; simp [KeepsOutputs]
  | decLoad a e => obtain ⟨-, rfl⟩ := execDecLoad_next h; simp [KeepsOutputs]
  | txWrite a v | rxWrite a v => obtain ⟨-, rfl⟩ := hostWrite_next h; simp [KeepsOutputs]
  | txRead a | rxRead a => obtain ⟨b, -, rfl⟩ := hostRead_next h; simp [KeepsOutputs]
  | encCur | decCur | reset => cases h; simp [KeepsOutputs, hostReturn]
  | decSeed => obtain rfl := execDecSeed_next h; simp [KeepsOutputs, State.seeded]
  | rxOpen a e => obtain rfl := execRxOpen_next h; simp [KeepsOutputs, State.opened, State.seeded]
  | txFrame a bytes =>
    obtain ⟨⟨-, hdec, hout⟩, hbytes⟩ := execTxFrame_next h
    obtain ⟨-, -, -, hresults⟩ := hdec
    obtain ⟨hconfig, hrequests, hresets, -⟩ := hout
    exact ⟨⟨hconfig, hrequests, hbytes, hresults⟩, fun _ => hresets⟩
  | _ => cases hf

/-- Settles O60: what every operation keeps, then each operation from what it does when it answers a next state. -/
theorem hostOperationsFrame : Obligations.HostOperationsFrame := by
  unfold Obligations.HostOperationsFrame
  intro s t i hf h
  obtain ⟨⟨hconfig, hrequests, hbytes, hresults⟩, hresets⟩ := exec_host_keepsOutputs hf h
  refine ⟨hconfig, hrequests, hbytes, hresults, hresets, ?encLoad, ?decLoad, ?txWrite, ?rxWrite, ?reads, ?decSeed,
    ?txFrame, ?rxOpen⟩
  case encLoad =>
    rintro ⟨a, e, rfl⟩
    obtain ⟨-, rfl⟩ := execEncLoad_next h
    exact ⟨setEncWindow_sameDecoder s a e, setEncWindow_sameOutside s a e, fun c _ => setEncWindow_memRead ..⟩
  case decLoad =>
    rintro ⟨a, e, rfl⟩
    obtain ⟨-, rfl⟩ := execDecLoad_next h
    exact ⟨setDecWindow_sameEncoder s a e, setDecWindow_sameOutside s a e, fun c _ => setDecWindow_memRead ..⟩
  case txWrite =>
    rintro a v rfl
    obtain ⟨-, rfl⟩ := hostWrite_next h
    exact ⟨put_tx_sameDecoder s a v, put_sameOutside s .tx a v, put_sameCellsBut s .tx a v, put_encCur .., put_encEnd ..⟩
  case rxWrite =>
    rintro a v rfl
    obtain ⟨-, rfl⟩ := hostWrite_next h
    exact ⟨put_rx_sameEncoder s a v, put_sameOutside s .rx a v, put_sameCellsBut s .rx a v, put_decCur .., put_decEnd ..⟩
  case reads =>
    rintro (⟨a, rfl⟩ | ⟨a, rfl⟩ | rfl | rfl)
    · obtain ⟨b, -, rfl⟩ := hostRead_next h
      exact hostReturn_sameUnits s (.cell b)
    · obtain ⟨b, -, rfl⟩ := hostRead_next h
      exact hostReturn_sameUnits s (.cell b)
    · cases h
      exact hostReturn_sameUnits s (.cursor s.encCur)
    · cases h
      exact hostReturn_sameUnits s (.cursor s.decCur)
  case decSeed =>
    rintro rfl
    obtain rfl := execDecSeed_next h
    exact ⟨seeded_sameEncoder s, seeded_sameOutside s, seeded_sameCellsBut s, seeded_decCur s, seeded_decEnd s⟩
  case txFrame =>
    rintro a bytes rfl
    obtain ⟨⟨hcells, hdec, hout⟩, -⟩ := execTxFrame_next h
    exact ⟨hdec, hout, hcells⟩
  case rxOpen =>
    rintro a e rfl
    obtain rfl := execRxOpen_next h
    exact ⟨opened_sameEncoder s a e, opened_sameOutside s a e, opened_sameCellsBut s a e⟩

end Sys2Proof.Machine
end

section
/-! Proofs of the family 43_frame_protocol.md: flags and aborts on the wire (R123, R124), a frame that is received and
one that does not fit (R117, R125, R126), and the loop of R122. -/

namespace Sys2Proof.Machine

/-! ### The decoder outside an escape (R20, R52) -/

/-- R20: the view of a legal state register is had below the bound and with this register only. -/
theorem dview_eq_cellView_iff {s : State} {st : Byte} (hl : legalState st = true) :
    dview s = cellView st ↔ s.decCur ≠ s.decEnd ∧ s.memRead .rx s.decCur = some st := by
  refine ⟨fun h => ?_, fun ⟨hne, hst⟩ => dview_cell hne hst⟩
  rcases (legalState_iff st).1 hl with rfl | rfl | rfl <;> grind [dview, cellView]

theorem dview_eq_ready {s : State} :
    dview s = .ready ↔ s.decCur ≠ s.decEnd ∧ s.memRead .rx s.decCur = some 0x7E#8 :=
  dview_eq_cellView_iff (st := 0x7E#8) rfl

theorem dview_eq_escPending {s : State} :
    dview s = .escPending ↔ s.decCur ≠ s.decEnd ∧ s.memRead .rx s.decCur = some 0x7D#8 :=
  dview_eq_cellView_iff (st := 0x7D#8) rfl

/-- The decoder is in `INIT` or in `READY`: the next byte begins an item of a body or ends the frame. -/
def State.AtItem (s : State) : Prop := dview s = .init ∨ dview s = .ready

theorem atItem_iff {s : State} :
    s.AtItem ↔ s.decCur ≠ s.decEnd ∧ ∃ st, s.memRead .rx s.decCur = some st ∧ (st = 0x00#8 ∨ st = 0x7E#8) := by
  rw [State.AtItem, dview_eq_init, dview_eq_ready, ← and_or_left]
  simp [and_or_left, exists_or]

/-! ### Flags and aborts on the wire (R123, R124) -/

/-- The block after `k` results `Pending`, and nothing else. -/
def State.pendings (s : State) (k : Nat) : State := { s with decResults := s.decResults ++ List.replicate k .pending }

section
variable (s : State) (k : Nat)
@[simp] theorem pendings_zero : s.pendings 0 = s := by simp [State.pendings]
@[simp] theorem pendings_decCur : (s.pendings k).decCur = s.decCur := rfl
@[simp] theorem pendings_decEnd : (s.pendings k).decEnd = s.decEnd := rfl
@[simp] theorem pendings_config : (s.pendings k).config = s.config := rfl
@[simp] theorem pendings_decResults : (s.pendings k).decResults = s.decResults ++ List.replicate k .pending := rfl
@[simp] theorem pendings_memRead (sp : Space) (a : Nat) : (s.pendings k).memRead sp a = s.memRead sp a := by
  cases sp <;> rfl
@[simp] theorem dview_pendings : dview (s.pendings k) = dview s := by simp [dview]
end

/-- R123: in `INIT` flags are absorbed. -/
theorem decFeed_flags {s : State} (j : Nat) (h : dview s = .init) :
    decFeed (List.replicate j 0x7E#8) s = .next (s.pendings j) := by
  obtain ⟨hne, hst⟩ := dview_eq_init.1 h
  have hrepeat := decFeed_repeats (r := .pending) (w := List.replicate j 0x7E#8)
    (fun _ hne hst val hval => List.eq_of_mem_replicate hval ▸ perform_decAccept_skip hne hst) hne hst
  rwa [List.length_replicate] at hrepeat

/-- Settles O44. -/
theorem flagsAreAbsorbed : Obligations.FlagsAreAbsorbed := by
  unfold Obligations.FlagsAreAbsorbed
  exact fun _ j h => decFeed_flags j h

/-- Settles O45: outside an escape the marker 0x7F is an illegal state, which aborts every byte; inside one the byte is
treated as R82 says. -/
theorem abortPropagates : Obligations.AbortPropagates := by
  unfold Obligations.AbortPropagates
  refine fun s hs => ⟨fun hview => ?outside, fun hview hpolicy => ?unstuff, fun hview hpolicy => ?abort⟩
  case outside =>
    obtain ⟨hne, st, hst, hl⟩ := atItem_iff.1 hview
    have hmark := markerWritten_put 0x7F#8 .abort hne (memRead_lt hst)
    obtain ⟨hne', hst'⟩ := hmark.state hne
    exact ⟨_, perform_decAccept_sabort hne hst hl, hmark, fun w => decFeed_corrupt w hne' hst' rfl⟩
  case unstuff =>
    obtain ⟨hne, hst⟩ := dview_eq_escPending.1 hview
    rw [perform_decAccept_unesc 0x7F#8 hne hst, if_neg (by simp [hpolicy])]
    exact storeAndAdvance_stores 0x5F#8 hs hne
  case abort =>
    obtain ⟨hne, hst⟩ := dview_eq_escPending.1 hview
    rw [perform_decAccept_unesc 0x7F#8 hne hst, if_pos (by simp [hpolicy])]
    rfl

/-! ### One item of a body (R82, R84, R87) -/

theorem decFeed_cons (val : Byte) (w : List Byte) (s : State) :
    decFeed (val :: w) s = andThen (perform (.decAccept val) s) (decFeed w) := rfl

theorem decFeed_append (w w' : List Byte) (s : State) : decFeed (w ++ w') s = andThen (decFeed w s) (decFeed w') := by
  rw [decFeed, List.map_append, performAll_append]
  rfl

theorem decFeed_one (val : Byte) (s : State) : decFeed [val] s = perform (.decAccept val) s := by
  cases h : perform (.decAccept val) s <;> simp [decFeed, h]

/-- R82 after R84: the byte after an `ESC` is stored over the marker of the escape. It is itself not reserved, so
neither policy turns it away. -/
theorem decFeed_escape {s : State} {b : Byte} (h : s.AtItem) (hr : reserved b = true) :
    decFeed [0x7D#8, escapeX b] s = storeAndAdvance b (s.pendings 1) := by
  obtain ⟨hne, st, hst, hl⟩ := atItem_iff.1 h
  have hmark : decReturn .pending (s.put .rx s.decCur 0x7D#8) =
      (s.pendings 1).put .rx (s.pendings 1).decCur 0x7D#8 := rfl
  have hpending : ((s.pendings 1).put .rx (s.pendings 1).decCur 0x7D#8).memRead .rx s.decCur = some 0x7D#8 :=
    put_memRead_self (s.pendings 1) 0x7D#8 (memRead_lt hst)
  have hvalue : ¬ (escapeX b = 0x7D#8 ∨ escapeX b = 0x7F#8) := by
    obtain ⟨hesc, -, habort⟩ := (not_reserved_iff _).1 (reserved_escapeX hr)
    exact not_or.2 ⟨hesc, habort⟩
  rw [decFeed_cons, perform_decAccept_escin hne hst hl, hmark, andThen_next, decFeed_one,
    perform_decAccept_unesc (s := (s.pendings 1).put .rx (s.pendings 1).decCur 0x7D#8) _ hne hpending,
    if_neg (fun hc => hvalue hc.2), escapeX_escapeX, storeAndAdvance_put]

/-- The stuffed form of one byte stores that byte, with `Pending` for an `ESC` before it. -/
theorem decFeed_item {s : State} (b : Byte) (h : s.AtItem) :
    decFeed (stuff [b]) s = storeAndAdvance b (s.pendings ((stuff [b]).length - 1)) := by
  cases hr : reserved b with
  | true =>
    rw [stuff_reserved hr]
    exact decFeed_escape h hr
  | false =>
    obtain ⟨hne, st, hst, hl⟩ := atItem_iff.1 h
    have hone : stuff [b] = [b] := stuff_data hr []
    rw [hone, List.length_singleton, pendings_zero, decFeed_one, perform_decAccept_data hne hst hl hr]

theorem length_stuff_singleton_pos (b : Byte) : 0 < (stuff [b]).length := by
  rw [length_stuff]
  simp

/-! ### A body that fits (R117) -/

theorem SameEncoder.trans {s t u : State} (h : SameEncoder s t) (h' : SameEncoder t u) : SameEncoder s u := by
  obtain ⟨hcur, hend, hcells, hbytes⟩ := h
  obtain ⟨hcur', hend', hcells', hbytes'⟩ := h'
  exact ⟨hcur'.trans hcur, hend'.trans hend, fun c => (hcells' c).trans (hcells c), hbytes'.trans hbytes⟩

/-- The decoder went from `s` to `t` over the body of `frame` with `Pending` for each byte of it: the frame is in the
cells it passed, and it stands in `READY` behind them unless there were none. -/
structure Received (frame : List Byte) (s t : State) : Prop where
  results : t.decResults = s.decResults ++ List.replicate (stuff frame).length .pending
  cursor : t.decCur = s.decCur + frame.length
  bound : t.decEnd = s.decEnd
  held : holds t .rx s.decCur frame
  view : dview t = if frame = [] then dview s else .ready
  cells : ∀ c, (c < s.decCur ∨ s.decCur + frame.length < c) → t.memRead .rx c = s.memRead .rx c
  encoder : SameEncoder s t
  outside : SameOutside s t

theorem Received.nil (s : State) : Received [] s s :=
  ⟨by simp [stuff], rfl, rfl, by simp [holds], rfl, fun _ _ => rfl, by simp [SameEncoder], by simp [SameOutside]⟩

/-- One byte, then those behind it, which are written later and leave the first as it is. -/
theorem Received.cons {b : Byte} {rest : List Byte} {s t u : State} (h : Received [b] s t) (h' : Received rest t u) :
    Received (b :: rest) s u := by
  obtain ⟨hres, hcur, hend, hheld, hview, hcells, henc, hout⟩ := h
  obtain ⟨hres', hcur', hend', hheld', hview', hcells', henc', hout'⟩ := h'
  rw [List.length_singleton] at hcur hcells
  rw [hcur] at hcur' hheld' hcells'
  refine ⟨?results, ?cursor, hend'.trans hend, holds_cons.2 ⟨?first, hheld'⟩, ?view, fun c hc => ?cell,
    henc.trans henc', hout.trans hout'⟩
  case results =>
    rw [hres', hres, List.append_assoc, ← List.replicate_add, ← List.length_append, ← stuff_cons]
  case cursor => rw [hcur', List.length_cons]; omega
  case first => rw [hcells' s.decCur (by omega)]; exact (holds_cons.1 hheld).1
  case view => simp [hview', hview]
  case cell =>
    rw [List.length_cons] at hc
    rw [hcells' c (by omega), hcells c (by omega)]

/-- R82, R87: below the bound of a window that fits the buffer an item is stored. -/
theorem decFeed_item_stored {s : State} (b : Byte) (h : s.AtItem) (hlt : s.decCur < s.decEnd)
    (hfit : s.decEnd ≤ s.config.rxSize) :
    ∃ t, decFeed (stuff [b]) s = .next t ∧ DataStored b (s.pendings ((stuff [b]).length - 1)) t := by
  obtain ⟨t, ht⟩ := DecAction.run_answers (s := s.pendings ((stuff [b]).length - 1)) (.data b) hlt hfit
  exact ⟨t, (decFeed_item b h).trans ht, dataStored_of_next hlt.ne ht⟩

/-- R89 with room: the byte stored is received. -/
theorem DataStored.received {b : Byte} {s t : State}
    (h : DataStored b (s.pendings ((stuff [b]).length - 1)) t) (hroom : s.decCur + 1 ≠ s.decEnd) :
    Received [b] s t := by
  obtain ⟨hresult, hview⟩ := h.entry
  obtain ⟨hread, hcur, hend, hadvance, henc, hout⟩ := h
  rw [pendings_decCur, pendings_decEnd, if_neg hroom] at hresult hview hadvance
  obtain ⟨-, -, hcells⟩ := hadvance
  refine ⟨?results, hcur, hend, holds_cons.2 ⟨hread, by simp [holds]⟩, hview, fun c hc => ?cell, henc, hout⟩
  case results =>
    rw [hresult, pendings_decResults, List.append_assoc, ← List.replicate_succ',
      Nat.sub_add_cancel (length_stuff_singleton_pos b)]
  case cell =>
    rw [List.length_singleton] at hc
    rw [hcells c (by simp; omega), pendings_memRead]

/-- R117: in a window with room for its marker a body is received. -/
theorem decFeed_stuff {frame : List Byte} {s : State} (h : s.AtItem) (hroom : s.decCur + frame.length < s.decEnd)
    (hfit : s.decEnd ≤ s.config.rxSize) : ∃ t, decFeed (stuff frame) s = .next t ∧ Received frame s t := by
  induction frame generalizing s with
  | nil => exact ⟨s, rfl, .nil s⟩
  | cons b rest ih =>
    rw [List.length_cons] at hroom
    obtain ⟨t, ht, hstored⟩ := decFeed_item_stored b h (by omega) hfit
    have hfirst := hstored.received (by omega)
    obtain ⟨hconfig, -⟩ := hfirst.outside
    obtain ⟨u, hu, hlater⟩ := ih (s := t) (Or.inr hfirst.view)
      (by rw [hfirst.cursor, hfirst.bound, List.length_singleton]; omega) (by rwa [hfirst.bound, hconfig])
    rw [stuff_cons, decFeed_append, ht]
    exact ⟨u, hu, hfirst.cons hlater⟩

/-! ### The host opens a window (R109) -/

section
variable (s : State) (a e : Nat)
@[simp] theorem opened_decCur : (s.opened a e).decCur = a := by simp [State.opened]
@[simp] theorem opened_decEnd : (s.opened a e).decEnd = e := by simp [State.opened]
@[simp] theorem opened_decResults : (s.opened a e).decResults = s.decResults := by simp [State.opened]
@[simp] theorem opened_config : (s.opened a e).config = s.config := (opened_sameOutside s a e).1
end

theorem perform_rxOpen {s : State} {a e : Nat} (hlt : a < e) (hfit : e ≤ s.config.rxSize) :
    perform (.host (.rxOpen a e)) s = .next (s.opened a e) :=
  (execRxOpen_loaded hlt.le hfit).trans
    (execDecSeed_cell (s := s.setDecWindow a e) hlt.ne (hlt.trans_le hfit))

theorem dview_opened {s : State} {a e : Nat} (hlt : a < e) (hfit : e ≤ s.config.rxSize) :
    dview (s.opened a e) = .init :=
  dview_seeded (s := s.setDecWindow a e) hlt.ne (hlt.trans_le hfit)

/-- What follows `RX.OPEN` on the wire is fed to the opened decoder. -/
theorem performAll_rxOpen {s : State} {a e : Nat} (w : List Byte) (hlt : a < e) (hfit : e ≤ s.config.rxSize) :
    performAll (.host (.rxOpen a e) :: w.map .decAccept) s = decFeed w (s.opened a e) := by
  rw [performAll_cons, perform_rxOpen hlt hfit]
  rfl

/-- A received frame that has a byte is completed by `FLAG`. -/
theorem Received.perform_flag {frame : List Byte} {s t : State} (h : Received frame s t) (hne : frame ≠ []) :
    perform (.decAccept 0x7E#8) t = .next (decReturn .frameComplete t) := by
  have hview := h.view
  rw [if_neg hne] at hview
  obtain ⟨hbound, hcell⟩ := dview_eq_ready.1 hview
  exact perform_decAccept_done hbound hcell

/-- Settles O42: the flags are absorbed, the body is received, and `FLAG` completes it. -/
theorem conformingFrameIsReceived : Obligations.ConformingFrameIsReceived := by
  unfold Obligations.ConformingFrameIsReceived
  intro s r e j body hbody hfit hroom
  obtain ⟨hbytes, hitems⟩ : body ≠ [] ∧ conformingItems body = true := by simpa [conformingBody] using hbody
  obtain ⟨frame, rfl⟩ := exists_stuff_of_conformingItems hitems
  have hne : frame ≠ [] := by rintro rfl; exact hbytes rfl
  rw [unstuff_stuff] at hroom ⊢
  have hinit : dview (s.opened r e) = .init := dview_opened (by omega) hfit
  obtain ⟨t, ht, hrec⟩ := decFeed_stuff (frame := frame) (s := (s.opened r e).pendings j)
    (Or.inl (by rw [dview_pendings, hinit])) (by simp; omega) (by simpa using hfit)
  have hflag := hrec.perform_flag hne
  have hview := hrec.view
  obtain ⟨hres, hcur, hend, hheld, -, hcells, henc, hout⟩ := hrec
  rw [pendings_decCur, opened_decCur] at hcur hheld hcells
  rw [if_neg hne, dview_eq_ready, hcur] at hview
  obtain ⟨-, hmarker⟩ := hview
  refine ⟨decReturn .frameComplete t, ?runs, ?results, hcur, ?bound, ?held, ?marker, fun c hc => ?cell, ?encoder,
    ?outside⟩
  case runs =>
    rw [performAll_rxOpen _ (by omega) hfit, decFeed_append, decFeed_append, decFeed_flags j hinit, andThen_next, ht,
      andThen_next, decFeed_one, hflag]
  case results =>
    rw [decReturn_decResults, hres, pendings_decResults, opened_decResults, List.append_assoc s.decResults,
      ← List.replicate_add]
  case bound => simpa using hend
  case held => exact fun i b hi => by simpa using hheld i b hi
  case marker => simpa using hmarker
  case cell =>
    rw [decReturn_memRead, hcells c hc, pendings_memRead, opened_sameCellsBut s r e c (by simp; omega)]
  case encoder => exact (opened_sameEncoder s r e).trans henc
  case outside => exact (opened_sameOutside s r e).trans hout

/-! ### Escapes (R125) -/

/-- Settles O46: a frame of one reserved byte through the encoder, and its body through the decoder. -/
theorem escapeCompleteness : Obligations.EscapeCompleteness := by
  unfold Obligations.EscapeCompleteness
  intro s b hb
  have hr : reserved b = true := (reserved_iff b).2 hb
  have hbody : stuff [b] = [0x7D#8, b ^^^ 0x20#8] := stuff_reserved hr []
  refine ⟨fun a ha => ?sent, fun hs hview hroom => ?received⟩
  case sent =>
    have hcount : reservedCount [b] = 1 := by simp [reservedCount, hr]
    obtain ⟨-, t, ht, hbytes, -⟩ := encoderSendsStuffedFrame s a 1 [b] ha
    rw [hcount] at ht
    exact ⟨t, ht, by simpa [hbody] using hbytes⟩
  case received =>
    obtain ⟨-, -, -, hfit⟩ := hs
    obtain ⟨t, ht, hrec⟩ := decFeed_stuff (frame := [b]) hview (by rw [List.length_singleton]; omega) hfit
    have hres := hrec.results
    rw [hbody] at ht hres
    exact ⟨t, ht, (holds_cons.1 hrec.held).1, hrec.cursor, hrec.view, hres⟩

/-! ### A body that fills its window (R126) -/

theorem stuff_append (xs ys : List Byte) : stuff (xs ++ ys) = stuff xs ++ stuff ys := by
  induction xs with
  | nil => rfl
  | cons x xs ih => rw [List.cons_append, stuff_cons, ih, stuff_cons x xs, List.append_assoc]

theorem holds_append {s : State} {sp : Space} {a : Nat} {xs ys : List Byte} :
    holds s sp a (xs ++ ys) ↔ holds s sp a xs ∧ holds s sp (a + xs.length) ys := by
  induction xs generalizing a with
  | nil => simp [holds]
  | cons x xs ih =>
    rw [List.cons_append, holds_cons, holds_cons, ih, and_assoc, List.length_cons, Nat.add_right_comm, Nat.add_assoc a]

/-- Cells that have not changed hold what they held. -/
theorem holds.congr {s t : State} {sp : Space} {a : Nat} {bytes : List Byte} (h : holds s sp a bytes)
    (hsame : ∀ c, a ≤ c → c < a + bytes.length → t.memRead sp c = s.memRead sp c) : holds t sp a bytes := by
  intro i b hi
  obtain ⟨hlt, -⟩ := List.getElem?_eq_some_iff.1 hi
  rw [hsame _ (by omega) (by omega)]
  exact h i b hi

/-- R126: a frame that fills the window: its last byte is stored with `Abort`, and the decoder is exhausted. -/
theorem decFeed_stuff_full {front : List Byte} {b : Byte} {s : State} (h : s.AtItem)
    (hfull : s.decCur + front.length + 1 = s.decEnd) (hfit : s.decEnd ≤ s.config.rxSize) :
    ∃ t, decFeed (stuff (front ++ [b])) s = .next t ∧
      t.decResults = s.decResults ++ List.replicate ((stuff (front ++ [b])).length - 1) .pending ++ [.abort] ∧
      t.decCur = s.decEnd ∧ t.decEnd = s.decEnd ∧ holds t .rx s.decCur (front ++ [b]) ∧
      ∀ c, (c < s.decCur ∨ s.decEnd ≤ c) → t.memRead .rx c = s.memRead .rx c := by
  obtain ⟨u, hu, hres, hcur, hend, hheld, hview, hcells, -, hconfig, -⟩ :=
    decFeed_stuff (frame := front) h (by omega) hfit
  have hitem : u.AtItem := by
    rw [State.AtItem, hview]
    split
    · exact h
    · exact Or.inr rfl
  obtain ⟨t, ht, hstored⟩ := decFeed_item_stored (s := u) b hitem (by omega) (by rwa [hend, hconfig])
  obtain ⟨hresult, -⟩ := hstored.entry
  obtain ⟨hread, hcur', hend', hadvance, -⟩ := hstored
  rw [pendings_decCur, pendings_decEnd, if_pos (by omega)] at hresult hadvance
  obtain ⟨-, hcells'⟩ := hadvance
  have hother : ∀ c, c ≠ u.decCur → t.memRead .rx c = u.memRead .rx c := by
    intro c hc
    rw [hcells' c (by simpa using hc), pendings_memRead]
  refine ⟨t, ?runs, ?results, by rw [hcur', pendings_decCur]; omega, hend'.trans hend, ?held, fun c hc => ?cell⟩
  case runs => rw [stuff_append, decFeed_append, hu, andThen_next, ht]
  case results =>
    rw [hresult, pendings_decResults, hres, List.append_assoc s.decResults, ← List.replicate_add, stuff_append,
      List.length_append, Nat.add_sub_assoc (length_stuff_singleton_pos b)]
  case held =>
    refine holds_append.2 ⟨hheld.congr fun c _ hc => hother c (by omega), holds_cons.2 ⟨?_, by simp [holds]⟩⟩
    rw [← hcur]
    exact hread
  case cell => rw [hother c (by omega), hcells c (by omega)]

/-- Settles O47: the first `m` bytes of the frame fill the window, and whatever follows meets a decoder at its bound. -/
theorem exhaustionIsDetected : Obligations.ExhaustionIsDetected := by
  unfold Obligations.ExhaustionIsDetected
  intro s r e frame w hlt hfit hlong
  obtain ⟨n, hn⟩ : ∃ n, e - r = n + 1 := ⟨e - r - 1, by omega⟩
  have hfront : frame.take (e - r) = frame.take n ++ [frame[n]] := by
    rw [hn, List.take_succ_eq_append_getElem]
  have hsplit : stuff frame ++ w = stuff (frame.take (e - r)) ++ (stuff (frame.drop (e - r)) ++ w) := by
    rw [← List.append_assoc, ← stuff_append, List.take_append_drop]
  have hpos : 0 < (stuff (frame.take (e - r))).length := by
    rw [length_stuff, List.length_take]; omega
  have hlen : (frame.take n).length = n := by rw [List.length_take]; omega
  obtain ⟨t, ht, hres, hcur, hend, hheld, hcells⟩ := decFeed_stuff_full (front := frame.take n) (b := frame[n])
    (s := s.opened r e) (Or.inl (dview_opened hlt hfit)) (by simp; omega) (by simpa using hfit)
  rw [← hfront] at ht hres hheld
  rw [opened_decEnd] at hcur hend hcells
  rw [opened_decCur] at hheld hcells
  refine ⟨{ t with decResults := t.decResults ++ List.replicate (stuff (frame.drop (e - r)) ++ w).length .abort },
    ?runs, ?results, hcur, hend, hheld, fun c hc => ?cell⟩
  case runs =>
    rw [performAll_rxOpen _ hlt hfit, hsplit, decFeed_append, ht, andThen_next,
      decFeed_exh _ (hcur.trans hend.symm)]
  case results =>
    have hcount (k : Nat) : (stuff (frame.take (e - r))).length + k - ((stuff (frame.take (e - r))).length - 1) =
        1 + k := by omega
    rw [hsplit, List.length_append (as := stuff (frame.take (e - r))), hcount, List.replicate_add, hres,
      opened_decResults, List.append_assoc, List.append_assoc, List.append_assoc]
    rfl
  case cell => exact (hcells c hc).trans (opened_sameCellsBut s r e c (by simp; omega))

/-! ### The loop (R122) -/

/-- Outputs are only ever appended to those recorded before. -/
theorem perform_appends {r : Request} {s t : State} (h : perform r s = .next t) :
    s.txBytes <+: t.txBytes ∧ s.decResults <+: t.decResults := by
  cases hsel : select s r with
  | error f => simp [perform, hsel] at h
  | ok sel =>
    rw [perform_of_select hsel] at h
    obtain ⟨tx, dec, -, htx, hdec, -⟩ := outputsAreNeverRead _ s t h
    exact ⟨⟨tx, htx.symm⟩, ⟨dec, hdec.symm⟩⟩

theorem performAll_appends {rs : List Request} {s t : State} (h : performAll rs s = .next t) :
    s.txBytes <+: t.txBytes ∧ s.decResults <+: t.decResults := by
  induction rs generalizing s with
  | nil =>
    cases h
    exact ⟨List.prefix_rfl, List.prefix_rfl⟩
  | cons r rs ih =>
    obtain ⟨u, hu, ht⟩ := andThen_eq_next.1 h
    obtain ⟨htx, hdec⟩ := perform_appends hu
    obtain ⟨htx', hdec'⟩ := ih ht
    exact ⟨htx.trans htx', hdec.trans hdec'⟩

/-- The first of several outputs is the one that the first operation appended. -/
theorem append_singleton_of_isPrefix {α : Type} {before after rest : List α} {x y : α} {mid : List α}
    (hmid : mid = before ++ [y]) (hafter : after = before ++ x :: rest) (h : mid <+: after) :
    mid = before ++ [x] ∧ after = mid ++ rest := by
  subst hmid hafter
  obtain ⟨tail, htail⟩ := h
  obtain ⟨rfl, -⟩ : y = x ∧ tail = rest := by simpa using htail
  simp

/-- A block is put together the same from any state with the same outside. -/
theorem assemble_congr {o o' : State} (e d : State) (h : SameOutside o o') :
    State.assemble o' e d = .assemble o e d := by
  obtain ⟨hconfig, hrequests, hresets, hbacks⟩ := h
  simp [State.assemble, hconfig, hrequests, hresets, hbacks]

@[simp] theorem assemble_txBytes (o e d : State) : (State.assemble o e d).txBytes = e.txBytes := rfl
@[simp] theorem assemble_decResults (o e d : State) : (State.assemble o e d).decResults = d.decResults := rfl

/-- R122: a round is one operation of the encoder, beside a decoder that accepts the byte it sends. -/
theorem loopRound_assemble {o e e' d d' : State} {b : Byte} (he : SameOutside o e) (hd : SameOutside o d)
    (henc : perform .encNext e = .next e') (hbyte : e'.txBytes = e.txBytes ++ [b])
    (hdec : perform (.decAccept b) d = .next d') :
    loopRound (.assemble o e d) = .next (.assemble o e' d') := by
  have henc' := perform_encNext_assemble d henc
  have hdec' := perform_decAccept_assemble e' hdec
  rw [assemble_congr _ _ he, assemble_congr _ _ he] at henc'
  rw [assemble_congr _ _ hd, assemble_congr _ _ hd] at hdec'
  have hlast : (State.assemble o e' d).txBytes.getLast? = some b := by simp [hbyte]
  rw [loopRound, henc', andThen_next, hlast]
  exact hdec'

/-- R122: after a round that ends with `Pending` the loop goes on. -/
theorem loopback_succ_pending {fuel n : Nat} {s t u : State} (hround : loopRound s = .next t)
    (hlast : t.decResults.getLast? = some .pending) (hrest : loopback fuel t = .next (u, n)) :
    loopback (fuel + 1) s = .next (u, n + 1) := by
  rw [loopback, hround]
  simp [hlast, hrest]

/-- R122: a round that ends with another result is the last. -/
theorem loopback_succ_done {fuel : Nat} {s t : State} (hround : loopRound s = .next t)
    (hlast : t.decResults.getLast? ≠ some .pending) : loopback (fuel + 1) s = .next (t, 1) := by
  rw [loopback, hround]
  exact if_neg hlast

/-- The first operation of a run that sends the bytes `b :: w` sends `b`, and the others `w`. -/
theorem encRun_succ_sends {b : Byte} {w : List Byte} {e e' : State} (h : encRun (b :: w).length e = .next e')
    (hbytes : e'.txBytes = e.txBytes ++ b :: w) :
    ∃ e1, perform .encNext e = .next e1 ∧ SameOutside e e1 ∧ e1.txBytes = e.txBytes ++ [b] ∧
      encRun w.length e1 = .next e' ∧ e'.txBytes = e1.txBytes ++ w := by
  obtain ⟨e1, hfirst, hrest⟩ := andThen_eq_next.1 h
  obtain ⟨i, hf, hi⟩ := perform_encNext_case hfirst
  obtain ⟨-, -, hout, b', hb'⟩ := (enc_outcome hf hi).frame
  obtain ⟨hb, hw⟩ := append_singleton_of_isPrefix hb' hbytes (performAll_appends hrest).1
  exact ⟨e1, hfirst, hout, hb, hrest, hw⟩

/-- The first byte of a run of which each gets `Pending` gets it, and the others get it. -/
theorem decFeed_cons_pending {b : Byte} {w : List Byte} {d d' : State} (h : decFeed (b :: w) d = .next d')
    (hresults : d'.decResults = d.decResults ++ List.replicate (b :: w).length .pending) :
    ∃ d1, perform (.decAccept b) d = .next d1 ∧ SameOutside d d1 ∧ d1.decResults = d.decResults ++ [.pending] ∧
      decFeed w d1 = .next d' ∧ d'.decResults = d1.decResults ++ List.replicate w.length .pending := by
  obtain ⟨d1, hfirst, hrest⟩ := andThen_eq_next.1 h
  obtain ⟨i, hf, hi⟩ := perform_decAccept_case hfirst
  obtain ⟨-, -, hout, r, hr⟩ := (dec_outcome hf hi).frame
  obtain ⟨hp, hw⟩ := append_singleton_of_isPrefix hr hresults (performAll_appends hrest).2
  exact ⟨d1, hfirst, hout, hp, hrest, hw⟩

/-- R122: while every byte gets `Pending`, the loop is a run of the encoder beside a run of the decoder over the bytes
that it sends, and goes on from where the two runs end. -/
theorem loopback_pending {w : List Byte} {o e e' d d' t : State} {fuel n : Nat} (he : SameOutside o e)
    (hd : SameOutside o d) (henc : encRun w.length e = .next e') (hbytes : e'.txBytes = e.txBytes ++ w)
    (hdec : decFeed w d = .next d') (hresults : d'.decResults = d.decResults ++ List.replicate w.length .pending)
    (hrest : loopback fuel (.assemble o e' d') = .next (t, n)) :
    loopback (fuel + w.length) (.assemble o e d) = .next (t, n + w.length) := by
  induction w generalizing e d with
  | nil =>
    cases henc
    cases hdec
    exact hrest
  | cons b w ih =>
    obtain ⟨e1, henc1, heout, hb, henc, hbytes⟩ := encRun_succ_sends henc hbytes
    obtain ⟨d1, hdec1, hdout, hp, hdec, hresults⟩ := decFeed_cons_pending hdec hresults
    have hround := loopRound_assemble he hd henc1 hb hdec1
    have hloop := ih (he.trans heout) (hd.trans hdout) henc hbytes hdec hresults
    exact loopback_succ_pending hround (by simp [hp]) hloop

theorem assemble_memRead_tx {o e : State} (d : State) (h : SameOutside o e) (c : Nat) :
    (State.assemble o e d).memRead .tx c = e.memRead .tx c := by
  obtain ⟨hconfig, -, hresets, -⟩ := h
  exact memRead_tx_congr (s := e) (t := .assemble o e d) hconfig.symm hresets.symm rfl c

theorem assemble_memRead_rx {o d : State} (e : State) (h : SameOutside o d) (c : Nat) :
    (State.assemble o e d).memRead .rx c = d.memRead .rx c := by
  obtain ⟨hconfig, -, hresets, -⟩ := h
  exact memRead_rx_congr (s := d) (t := .assemble o e d) hconfig.symm hresets.symm rfl c

/-- R122: the last round: the encoder at its bound sends `FLAG`, which completes the frame received. -/
theorem loopback_flag {frame : List Byte} {o e d0 d : State} (fuel : Nat) (he : SameOutside o e) (hd : SameOutside o d)
    (hend : e.encCur = e.encEnd) (hrec : Received frame d0 d) (hne : frame ≠ []) :
    loopback (fuel + 1) (.assemble o e d) =
      .next (.assemble o (encReturn 0x7E#8 e) (decReturn .frameComplete d), 1) := by
  have hround := loopRound_assemble he hd (perform_encNext_end hend) rfl (hrec.perform_flag hne)
  exact loopback_succ_done hround (by simp)

/-- R107, R109: the block with a frame before the encoder and a window open. -/
theorem performAll_txFrame_rxOpen {s : State} {a r e : Nat} {frame : List Byte}
    (htx : a + frame.length ≤ s.config.txSize) (hlt : r < e) (hrx : e ≤ s.config.rxSize) :
    ∃ s0, performAll [.host (.txFrame a frame), .host (.rxOpen r e)] s = .next s0 ∧
      s0.encCur = a ∧ s0.encEnd = a + frame.length ∧ holds s0 .tx a frame ∧
      s0.decCur = r ∧ s0.decEnd = e ∧ s0.config = s.config ∧ dview s0 = .init := by
  obtain ⟨l, hl, hcur, hend, -, hheld, -, -, hconfig, -⟩ := perform_txFrame htx
  rw [← hconfig] at hrx
  obtain ⟨hcur', hend', hcells, -⟩ := opened_sameEncoder l r e
  refine ⟨l.opened r e, ?runs, hcur'.trans hcur, hend'.trans hend, hheld.congr fun c _ _ => hcells c, by simp, by simp,
    by simp [hconfig], dview_opened hlt hrx⟩
  rw [performAll_cons, hl, andThen_next, performAll_cons, perform_rxOpen hlt hrx, andThen_next, performAll_nil]

/-- Settles O43: the body in one round for each of its bytes, then `FLAG`. -/
theorem roundTripIdentity : Obligations.RoundTripIdentity := by
  unfold Obligations.RoundTripIdentity
  intro s a r e frame hpos htx hrx hroom
  have hne : frame ≠ [] := List.length_pos_iff.1 hpos
  obtain ⟨s0, hs0, rfl, hencEnd, hheld, rfl, rfl, hconfig, hinit⟩ :=
    performAll_txFrame_rxOpen (r := r) htx (by omega) hrx
  obtain ⟨enc, henc, hsent⟩ := encRun_stuff hencEnd.ge hheld
  obtain ⟨dec, hdec, hrec⟩ := decFeed_stuff (frame := frame) (s := s0) (Or.inl hinit) (by omega) (by rwa [hconfig])
  obtain ⟨hbytes, hencCur, hencBound, hmutated, -, -, heout⟩ := hsent
  rw [length_mutated] at hencCur
  have hdout := hrec.outside
  refine ⟨s0, .assemble s0 (encReturn 0x7E#8 enc) (decReturn .frameComplete dec), hs0, fun fuel hfuel => ?loop,
    ?result, ?received, hrec.cursor, hencCur, hencBound.trans hencEnd, ?rewritten⟩
  case loop =>
    obtain ⟨extra, rfl⟩ := Nat.exists_eq_add_of_le' hfuel
    have hlast := loopback_flag extra heout hdout (by omega) hrec hne
    have hloop := loopback_pending (o := s0) (by simp [SameOutside]) (by simp [SameOutside]) henc hbytes hdec
      hrec.results hlast
    rwa [length_stuff, assemble_self, Nat.add_assoc, Nat.add_comm 1] at hloop
  case result => simp
  case received =>
    have hdone : SameOutside s0 (decReturn .frameComplete dec) := hdout
    exact hrec.held.congr fun c _ _ => (assemble_memRead_rx _ hdone c).trans (decReturn_memRead ..)
  case rewritten =>
    have hflag : SameOutside s0 (encReturn 0x7E#8 enc) := heout
    exact hmutated.congr fun c _ _ => (assemble_memRead_tx _ hflag c).trans (encReturn_memRead ..)

end Sys2Proof.Machine
end

section
/-! Proofs of the family 60_exceptions.md: what each cause of an `Abort` leaves behind (R153), what the host can tell
from it (R152), how long the `Abort` repeats (R155), and the idle step (R164). -/

namespace Sys2Proof.Machine

/-! ### The idle step (R164) -/

/-- Settles O8. -/
theorem idleStepChangesNothing : Obligations.IdleStepChangesNothing := by
  unfold Obligations.IdleStepChangesNothing
  intro s h
  rw [step, performNext, h]

/-! ### The causes, by the state register (R153) -/

theorem abortCause_guard {s : State} (val : Byte) (h : s.decCur = s.decEnd) :
    abortCause s val = .exhaustedOnEntry := by
  rw [abortCause, if_pos h]

/-- In `ESC_PENDING` the policy is asked first, then the room for the advance. -/
theorem abortCause_escPending {s : State} (val : Byte) (hne : s.decCur ≠ s.decEnd)
    (hst : s.memRead .rx s.decCur = some 0x7D#8) :
    abortCause s val =
      if s.config.policy = .abort ∧ (val = 0x7D#8 ∨ val = 0x7F#8) then .escReserved
      else if s.decCur + 1 = s.decEnd then .exhaustedOnAdvance else .none := by
  simp [abortCause, hne, hst, legalState]

/-- In `INIT` and in `READY` only `ABORT` and a data byte with no room for the advance are causes. -/
theorem abortCause_ready {s : State} {st : Byte} (val : Byte) (hne : s.decCur ≠ s.decEnd)
    (hst : s.memRead .rx s.decCur = some st) (hl : st = 0x00#8 ∨ st = 0x7E#8) :
    abortCause s val =
      if val = 0x7F#8 then .senderAbort
      else if reserved val = false ∧ s.decCur + 1 = s.decEnd then .exhaustedOnAdvance else .none := by
  rcases hl with rfl | rfl <;> simp [abortCause, hne, hst, legalState]

theorem abortCause_corrupt {s : State} {st : Byte} (val : Byte) (hne : s.decCur ≠ s.decEnd)
    (hst : s.memRead .rx s.decCur = some st) (hl : legalState st = false) : abortCause s val = .corruption := by
  have hnot := (legalState_iff st).not.1 (by simp [hl])
  simp only [not_or] at hnot
  obtain ⟨hinit, hready, hesc⟩ := hnot
  simp [abortCause, hne, hst, hl, hinit, hready, hesc]

/-! ### What each cause leaves behind (R141 to R145) -/

/-- The state after `DEC.ACCEPT`, by the cause that R153 gives before it. -/
inductive CauseLeaves (s : State) : AbortCause → State → Prop where
  | none {t : State} (r : Result) (hr : r ≠ .abort) (ht : t.decResults = s.decResults ++ [r]) : CauseLeaves s .none t
  | exhaustedOnEntry (hguard : s.decCur = s.decEnd) : CauseLeaves s .exhaustedOnEntry (decReturn .abort s)
  | exhaustedOnAdvance (v : Byte) (hlast : s.decCur + 1 = s.decEnd) :
      CauseLeaves s .exhaustedOnAdvance (decReturn .abort (s.put .rx s.decCur v).advanceDec)
  | escReserved (hne : s.decCur ≠ s.decEnd) (hst : s.memRead .rx s.decCur = some 0x7D#8) :
      CauseLeaves s .escReserved (decReturn .abort s)
  | senderAbort (hne : s.decCur ≠ s.decEnd) (hlt : s.decCur < s.size .rx) :
      CauseLeaves s .senderAbort (decReturn .abort (s.put .rx s.decCur 0x7F#8))
  | corruption (st : Byte) (hne : s.decCur ≠ s.decEnd) (hst : s.memRead .rx s.decCur = some st)
      (hl : legalState st = false) : CauseLeaves s .corruption (decReturn .abort s)

/-- R89: storing a data byte aborts exactly when it fills the window. -/
theorem storeAndAdvance_causeLeaves {s t : State} {v : Byte} (h : storeAndAdvance v s = .next t) :
    CauseLeaves s (if s.decCur + 1 = s.decEnd then .exhaustedOnAdvance else .none) t := by
  obtain ⟨_, ⟨hlast, rfl⟩ | ⟨hroom, _, rfl⟩⟩ := storeAndAdvance_next h
  · rw [if_pos hlast]
    exact .exhaustedOnAdvance v hlast
  · rw [if_neg hroom]
    exact .none .pending (by decide) (by simp)

/-- The rows of `INIT` and of `READY`, by the received byte (R83 to R87). -/
theorem causeLeaves_of_ready {s t : State} {st val : Byte} (hne : s.decCur ≠ s.decEnd)
    (hst : s.memRead .rx s.decCur = some st) (hl : st = 0x00#8 ∨ st = 0x7E#8)
    (h : perform (.decAccept val) s = .next t) : CauseLeaves s (abortCause s val) t := by
  rw [abortCause_ready val hne hst hl]
  cases hval : reserved val with
  | false =>
    obtain ⟨_, _, habort⟩ := (not_reserved_iff val).1 hval
    rw [perform_decAccept_data hne hst hl hval] at h
    simpa [habort] using storeAndAdvance_causeLeaves h
  | true =>
    rcases (reserved_iff val).1 hval with rfl | rfl | rfl
    · rw [perform_decAccept_escin hne hst hl] at h
      cases h
      exact .none .pending (by decide) (by simp)
    · rcases hl with rfl | rfl
      · rw [perform_decAccept_skip hne hst] at h
        cases h
        exact .none .pending (by decide) rfl
      · rw [perform_decAccept_done hne hst] at h
        cases h
        exact .none .frameComplete (by decide) rfl
    · rw [perform_decAccept_sabort hne hst hl] at h
      cases h
      exact .senderAbort hne (memRead_lt hst)

/-- R153: each operation that answers leaves what the cause before it says, the tests of R80 in their order. -/
theorem perform_decAccept_causeLeaves {s t : State} {val : Byte} (h : perform (.decAccept val) s = .next t) :
    CauseLeaves s (abortCause s val) t := by
  rcases perform_decAccept_reads h with hguard | ⟨hne, st, hst⟩
  · rw [perform_decAccept_exh val hguard] at h
    cases h
    exact abortCause_guard val hguard ▸ .exhaustedOnEntry hguard
  cases hl : legalState st with
  | false =>
    rw [perform_decAccept_corrupt val hne hst hl] at h
    cases h
    exact abortCause_corrupt val hne hst hl ▸ .corruption st hne hst hl
  | true =>
    rcases (legalState_iff st).1 hl with rfl | rfl | rfl
    · exact causeLeaves_of_ready hne hst (Or.inl rfl) h
    · exact causeLeaves_of_ready hne hst (Or.inr rfl) h
    · rw [perform_decAccept_unesc val hne hst] at h
      rw [abortCause_escPending val hne hst]
      by_cases hpolicy : s.config.policy = .abort ∧ (val = 0x7D#8 ∨ val = 0x7F#8)
      · rw [if_pos hpolicy] at h ⊢
        cases h
        exact .escReserved hne hst
      · rw [if_neg hpolicy] at h ⊢
        exact storeAndAdvance_causeLeaves h

/-- R153: the result is `Abort` unless the cause is `none`. -/
theorem CauseLeaves.result {s t : State} {c : AbortCause} (h : CauseLeaves s c t) :
    ∃ r, t.decResults = s.decResults ++ [r] ∧ (r = .abort ↔ c ≠ .none) := by
  cases h with
  | none r hr ht => exact ⟨r, ht, by simp [hr]⟩
  | exhaustedOnEntry => exact ⟨.abort, rfl, by simp⟩
  | exhaustedOnAdvance => exact ⟨.abort, by simp, by simp⟩
  | escReserved => exact ⟨.abort, rfl, by simp⟩
  | senderAbort => exact ⟨.abort, by simp, by simp⟩
  | corruption => exact ⟨.abort, rfl, by simp⟩

/-- Settles O31: within the windows the operation answers, and only the cause `none` comes with another result. -/
theorem abortExactlyWhenCaused : Obligations.AbortExactlyWhenCaused := by
  unfold Obligations.AbortExactlyWhenCaused
  intro s val hs
  obtain ⟨t, ht⟩ := perform_decAccept_answers val hs
  obtain ⟨r, hresult, habort⟩ := (perform_decAccept_causeLeaves ht).result
  exact ⟨t, r, ht, hresult, habort⟩

/-! ### What the host can tell afterwards (R152) -/

theorem hostDiagnosis_guard {s : State} (h : s.decCur = s.decEnd) : hostDiagnosis s = .bufferExhausted := by
  rw [hostDiagnosis, if_pos h]

/-- R152: the host's reading of a state register. -/
def cellDiagnosis (st : Byte) : Diagnosis :=
  if st = 0x7D#8 then .escReserved
  else if st = 0x7F#8 then .senderAbortOrCorrupt
  else if st = 0x00#8 ∨ st = 0x7E#8 then .noAbort
  else .bufferCorruption

theorem hostDiagnosis_cell {s : State} {st : Byte} (hne : s.decCur ≠ s.decEnd)
    (hst : s.memRead .rx s.decCur = some st) : hostDiagnosis s = cellDiagnosis st := by
  simp [hostDiagnosis, cellDiagnosis, hne, hst]

/-- An illegal state register reads as the sender's abort or as corruption. -/
theorem cellDiagnosis_of_illegal {st : Byte} (hl : legalState st = false) :
    cellDiagnosis st = .senderAbortOrCorrupt ∨ cellDiagnosis st = .bufferCorruption := by
  have hnot := (legalState_iff st).not.1 (by simp [hl])
  unfold cellDiagnosis
  split_ifs <;> tauto

/-- Settles O32: the cursor or the cell that each cause leaves, as the host reads it. -/
theorem hostTellsCausesApart : Obligations.HostTellsCausesApart := by
  unfold Obligations.HostTellsCausesApart
  intro s t val _ h hcause
  have hleft := perform_decAccept_causeLeaves h
  generalize abortCause s val = c at hleft hcause ⊢
  cases hleft with
  | none => exact absurd rfl hcause
  | exhaustedOnEntry hguard => simp [hostDiagnosis_guard (s := decReturn .abort s) hguard]
  | exhaustedOnAdvance v hlast =>
    simp [hostDiagnosis_guard (s := decReturn .abort (s.put .rx s.decCur v).advanceDec) (by simpa using hlast)]
  | escReserved hne hst =>
    simp [hostDiagnosis_cell (s := decReturn .abort s) hne (by simpa using hst), cellDiagnosis]
  | senderAbort hne hlt =>
    obtain ⟨hne', hst'⟩ := (markerWritten_put 0x7F#8 .abort hne hlt).state hne
    simp [hostDiagnosis_cell hne' hst', cellDiagnosis]
  | corruption st hne hst hl =>
    rw [hostDiagnosis_cell (s := decReturn .abort s) hne (by simpa using hst)]
    rcases cellDiagnosis_of_illegal hl with hread | hread <;> simp [hread]

/-! ### How long the `Abort` repeats (R155) -/

/-- Settles O33: the two forms of exhaustion leave the cursor at the bound, the sender's abort and corruption an illegal
state register; the cause of R145 leaves everything as it was. -/
theorem abortRepeatsUntilHostActs : Obligations.AbortRepeatsUntilHostActs := by
  unfold Obligations.AbortRepeatsUntilHostActs
  intro s t val _ h hcause
  have hleft := perform_decAccept_causeLeaves h
  generalize abortCause s val = c at hleft hcause ⊢
  cases hleft with
  | none => exact absurd rfl hcause
  | exhaustedOnEntry hguard => exact ⟨fun _ w => decFeed_exh w hguard, nofun⟩
  | exhaustedOnAdvance v hlast => exact ⟨fun _ w => decFeed_exh w (by simpa using hlast), nofun⟩
  | escReserved hne hst =>
    refine ⟨fun hother => absurd rfl hother, fun _ => ⟨?stillPending, fun a _ => decReturn_memRead ..⟩⟩
    case stillPending => rw [dview_decReturn, dview_eq_escPending]; exact ⟨hne, hst⟩
  | senderAbort hne hlt =>
    obtain ⟨hne', hst'⟩ := (markerWritten_put 0x7F#8 .abort hne hlt).state hne
    exact ⟨fun _ w => decFeed_corrupt w hne' hst' rfl, nofun⟩
  | corruption st hne hst hl =>
    exact ⟨fun _ w => decFeed_corrupt (s := decReturn .abort s) w hne (by simpa using hst) hl, nofun⟩

end Sys2Proof.Machine
end

section
/-! Proofs of the family 70_reset_and_hazards.md: the reset event (R170) and the bound on the host's receive loop
(R188). -/

namespace Sys2Proof.Machine

/-! ### RESET (R26, R27, R170) -/

/-- R27: where no cell is listed, every cell that exists reads the content that the last reset left in it. -/
theorem memRead_of_mem_nil {s : State} {sp : Space} {a : Nat} (hempty : s.mem sp = []) (hlt : a < s.size sp) :
    s.memRead sp a = some (Config.resetCell sp s.resets a) := by
  rw [State.memRead, if_pos hlt, hempty]
  rfl

/-- Settles O59: after the event neither buffer lists a cell. -/
theorem resetEventClearsBlock : Obligations.ResetEventClearsBlock := by
  unfold Obligations.ResetEventClearsBlock
  intro st
  refine ⟨_, rfl, rfl, rfl, rfl, rfl, fun a ha => ?tx, fun a ha => ?rx, rfl, rfl, rfl, rfl, rfl⟩
  case tx => exact memRead_of_mem_nil (sp := .tx) rfl ha
  case rx => exact memRead_of_mem_nil (sp := .rx) rfl ha

/-! ### The receive loop (R188) -/

theorem receive_cons_pending {s t : State} {b : Byte} (w : List Byte) (h : perform (.decAccept b) s = .next t)
    (hlast : t.decResults.getLast? = some .pending) : receive (b :: w) s = receive w t := by
  simp only [receive, h, if_pos hlast]

theorem receive_cons_done {s t : State} {b : Byte} (w : List Byte) (h : perform (.decAccept b) s = .next t)
    (hlast : t.decResults.getLast? ≠ some .pending) : receive (b :: w) s = .next (t, w) := by
  simp only [receive, h, if_neg hlast]

/-- Which operations return `Pending`: a skipped flag (R83), an `ESC` (R84), a data byte stored with room for the
marker (R89). -/
inductive PendingStep (s : State) (val : Byte) (t : State) : Prop where
  | skipped (hview : dview s = .init) (hval : val = 0x7E#8)
  | escaped (hview : s.AtItem) (hmark : MarkerWritten 0x7D#8 .pending s t)
  | stored (v : Byte) (hne : s.decCur ≠ s.decEnd) (hroom : s.decCur + 1 ≠ s.decEnd) (hstored : DataStored v s t)

/-- R89: a data byte is stored with `Pending` only where the cursor does not reach its bound. -/
theorem pendingStep_of_storeAndAdvance {s t : State} {v val : Byte} (hne : s.decCur ≠ s.decEnd)
    (h : storeAndAdvance v s = .next t) (hres : t.decResults = s.decResults ++ [.pending]) :
    PendingStep s val t := by
  have hstored := dataStored_of_next hne h
  obtain ⟨hresult, -⟩ := hstored.entry
  refine .stored v hne (fun hfull => ?_) hstored
  simp [hresult, hfull] at hres

/-- The actions of R80 that return `Pending`, the tests in their order. -/
theorem perform_decAccept_pendingStep {s t : State} {val : Byte} (h : perform (.decAccept val) s = .next t)
    (hres : t.decResults = s.decResults ++ [.pending]) : PendingStep s val t := by
  rcases perform_decAccept_reads h with hguard | ⟨hne, st, hst⟩
  · rw [perform_decAccept_exh val hguard] at h
    cases h
    simp at hres
  have hlt := memRead_lt hst
  rw [perform_decAccept_action val hne hst, decAction] at h
  split_ifs at h with hesc hpolicy hl hflag hinit hescIn habort
  · cases h
    simp at hres
  · exact pendingStep_of_storeAndAdvance hne h hres
  · subst hinit
    exact .skipped (dview_eq_init.2 ⟨hne, hst⟩) hflag
  · cases h
    simp at hres
  · rw [DecAction.run_mark _ _ hlt] at h
    cases h
    exact .escaped (atItem_iff.2 ⟨hne, st, hst, hl⟩) (markerWritten_put 0x7D#8 .pending hne hlt)
  · rw [DecAction.run_mark _ _ hlt] at h
    cases h
    simp at hres
  · exact pendingStep_of_storeAndAdvance hne h hres
  · cases h
    simp at hres

/-- R188: how many bytes can come before a result that is not `Pending` at the latest: two for a cell of the window that
is left, one of which is in already where an escape is pending. -/
def State.bytesLeft (s : State) : Nat :=
  2 * (s.decEnd - s.decCur) - if dview s = .escPending then 1 else 0

theorem bytesLeft_of_escPending {s : State} (h : dview s = .escPending) :
    s.bytesLeft = 2 * (s.decEnd - s.decCur) - 1 := by
  rw [State.bytesLeft, if_pos h]

theorem bytesLeft_of_ne_escPending {s : State} (h : dview s ≠ .escPending) :
    s.bytesLeft = 2 * (s.decEnd - s.decCur) := by
  rw [State.bytesLeft, if_neg h, Nat.sub_zero]

theorem bytesLeft_le (s : State) : s.bytesLeft ≤ 2 * (s.decEnd - s.decCur) := Nat.sub_le ..

theorem le_bytesLeft (s : State) : 2 * (s.decEnd - s.decCur) - 1 ≤ s.bytesLeft := by
  unfold State.bytesLeft
  split <;> omega

/-- R188: a byte that gets `Pending` and is not a skipped flag uses up one of the bytes left, and not the last. -/
theorem PendingStep.bytesLeft_lt {s t : State} {val : Byte} (h : PendingStep s val t) (hs : s.WindowsOk)
    (hskip : dview s = .init → val ≠ 0x7E#8) :
    dview t ≠ .init ∧ 0 < t.bytesLeft ∧ t.bytesLeft < s.bytesLeft := by
  obtain ⟨_, _, hcur, _⟩ := hs
  cases h with
  | skipped hview hval => exact absurd hval (hskip hview)
  | escaped hview hmark =>
    obtain ⟨hne, _⟩ := atItem_iff.1 hview
    have hview' : dview t = .escPending := hmark.dview_eq hne
    have hbefore := bytesLeft_of_ne_escPending (s := s) (by rcases hview with h | h <;> simp [h])
    have hafter := bytesLeft_of_escPending hview'
    obtain ⟨-, -, hcur', hend', -⟩ := hmark
    rw [hcur', hend'] at hafter
    exact ⟨by simp [hview'], by omega, by omega⟩
  | stored v hne hroom hstored =>
    obtain ⟨-, hview'⟩ := hstored.entry
    rw [if_neg hroom] at hview'
    have hbefore := le_bytesLeft s
    have hafter := bytesLeft_of_ne_escPending (s := t) (by simp [hview'])
    obtain ⟨-, hcur', hend', -⟩ := hstored
    rw [hcur', hend'] at hafter
    exact ⟨by simp [hview'], by omega, by omega⟩

/-- R188, with the bound that takes a pending escape into account, which is what the bytes before leave. -/
theorem receive_bounded {w : List Byte} {s : State} (hs : s.WindowsOk)
    (hfirst : dview s = .init → w.head? ≠ some 0x7E#8) (hfed : max 1 s.bytesLeft ≤ w.length) :
    ∃ t rest, receive w s = .next (t, rest) ∧ w.length - rest.length ≤ max 1 s.bytesLeft ∧
      (t.decResults.getLast? = some .frameComplete ∨ t.decResults.getLast? = some .abort) := by
  induction w generalizing s with
  | nil => simp at hfed
  | cons b w ih =>
    obtain ⟨t, r, ht, hres, -⟩ := abortExactlyWhenCaused s b hs
    have hlast : t.decResults.getLast? = some r := by simp [hres]
    rw [List.length_cons] at hfed ⊢
    cases r with
    | pending =>
      obtain ⟨hinit, hpos, hless⟩ := (perform_decAccept_pendingStep ht hres).bytesLeft_lt hs (by simpa using hfirst)
      obtain ⟨hmove, -⟩ := perform_unit (Or.inr ⟨b, rfl⟩) ht
      obtain ⟨u, rest, hu, hcount, hend⟩ := ih (hmove.windowsOk hs) (fun h => absurd h hinit) (by omega)
      exact ⟨u, rest, (receive_cons_pending w ht hlast).trans hu, by omega, hend⟩
    | frameComplete => exact ⟨t, w, receive_cons_done w ht (by simp [hlast]), by omega, Or.inl hlast⟩
    | abort => exact ⟨t, w, receive_cons_done w ht (by simp [hlast]), by omega, Or.inr hlast⟩

/-- Settles O48: the bytes left are at most two for a cell of the window. -/
theorem receiveLoopIsBounded : Obligations.ReceiveLoopIsBounded := by
  unfold Obligations.ReceiveLoopIsBounded
  intro s w hs hfirst hfed
  have hle := bytesLeft_le s
  obtain ⟨t, rest, ht, hcount, hend⟩ := receive_bounded hs hfirst (by omega)
  exact ⟨t, rest, ht, by omega, hend⟩

end Sys2Proof.Machine
end
